-- ==== Sys2Proof/Word.lean ====
section
/-! DEFINITION. Words, byte strings and the named values that commands and state are made of
(00_scope.md rules R8, R13, R15; 10_state.md rules R34, R50; 30_encoding.md rules R104, R105;
60_exceptions.md rule R410). -/

namespace Sys2Proof

/-- An 8-bit value (R15). -/
abbrev Byte := BitVec 8

/-- A 32-bit word: a state word of the SHA2-32 and RMD160 families, and the command word (R8, R12). -/
abbrev Word32 := BitVec 32

/-- A 64-bit word: a word of the state store, ARG, a register value (R8, R12). -/
abbrev Word64 := BitVec 64

/-- A byte string: byte 0 first (R15). -/
abbrev Bytes := List Byte

/-- `zeros(n)` of R15: n bytes 0x00. -/
def zeros (n : Nat) : Bytes := List.replicate n 0x00#8

/-- The nine algorithms of R8. The codes 1 to 9 of R104 are `Machine.algCode`. -/
inductive Alg where
  | sha224 | sha256 | sha384 | sha512
  | sha3_224 | sha3_256 | sha3_384 | sha3_512
  | ripemd160
deriving DecidableEq, Repr

/-- The four families of R8. -/
inductive Family where
  | sha2_32 | sha2_64 | keccak | rmd160
deriving DecidableEq, Repr

/-- The output-length operand of FINAL and HMAC_FINAL (R101, R105): FULL = 1, or FULL = 0 with the
7-bit OUTLEN. -/
inductive OutLen where
  | full
  | bytes (n : BitVec 7)
deriving DecidableEq, Repr

/-- The mapped register numbers of R50, under their names. -/
inductive Reg where
  | ctxInfo
  | ctxCount
  | hmacInfo
  | ctxS (i : Fin 25)
  | ctxBufw (k : Fin 18)
deriving DecidableEq, Repr

/-- The life-cycle phase of a context or of the HMAC unit (R34). Value 3 of the 2-bit field is never
held (R30), so the type has no such value. -/
inductive Phase where
  | empty | absorbing | finalized
deriving DecidableEq, Repr

/-- The status codes of R410 under their names. -/
inductive Status where
  | ok | eopc | ersv | ealg | estate | elen | ereg | eovf
deriving DecidableEq, Repr

/-- A command as the host sends it (R100): the command word, the argument and the payload. -/
structure Transaction where
  cw : Word32
  arg : Word64
  payload : Bytes
deriving DecidableEq, Repr

/-- The response to a command (R107). -/
structure Response where
  status : Status
  value : Word64
  out : Bytes
deriving DecidableEq, Repr

end Sys2Proof
end

