-- ==== Sys2Proof/Syntax.lean ====
section
/-! DEFINITION. The commands: one constructor per row of spec/opcode_table.json (30_encoding.md rules
R101, R108, R113). -/

namespace Sys2Proof

/-- A command with its operands, as R113 writes it. Where R108 gives a command a byte count in ARG, the
count is the length of the payload: R103 makes the two equal, and a transaction in which they differ is
no command (R472), which the decoder refuses before any operand is read. -/
inductive Instr where
  /-- INIT alg: start a new hash context (R340). -/
  | init (alg : Alg)
  /-- UPDATE n, bytes: absorb message bytes (R341). -/
  | update (payload : Bytes)
  /-- FINAL, FINAL L: pad, finish, return the digest (R342). -/
  | final (len : OutLen)
  /-- RDREG reg: read one register of the register view (R343). -/
  | rdreg (reg : Reg)
  /-- HMAC_INIT alg, k, key: load a key (R370). -/
  | hmacInit (alg : Alg) (key : Bytes)
  /-- HMAC_UPDATE n, bytes: absorb message bytes into the inner context (R371). -/
  | hmacUpdate (payload : Bytes)
  /-- HMAC_FINAL, HMAC_FINAL L: finish, return the MAC (R372). -/
  | hmacFinal (len : OutLen)
  /-- HMAC_REINIT: restore the pre-keyed contexts (R373). -/
  | hmacReinit
deriving DecidableEq, Repr

end Sys2Proof
end

