-- ==== Sys2Proof/WellFormed.lean ====
section
/-! DEFINITION. Which commands have an encoding (20_memory.md rule R71; 30_encoding.md rules R101 to R103).
The operand types leave one thing to check: a byte count must fit the 64-bit ARG. -/

namespace Sys2Proof

/-- "A payload may have any length from 0 to 2^64 − 1 bytes; the length is the command's ARG" (R71). -/
def payloadFits (m : Bytes) : Bool := decide (m.length < 2 ^ 64)

/-- The command can be encoded as a transaction. -/
def Instr.wf (i : Instr) : Bool :=
  match i with
  | .init _ => true
  | .update payload => payloadFits payload
  | .final _ => true
  | .rdreg _ => true
  | .hmacInit _ key => payloadFits key
  | .hmacUpdate payload => payloadFits payload
  | .hmacFinal _ => true
  | .hmacReinit => true

end Sys2Proof
end

