-- ==== Sys2Proof/Decode.lean ====
section
/-! DEFINITION. Decoding a transaction, total and by name (30_encoding.md rules R101 to R112;
60_exceptions.md rules R410 to R415), and the encoder, written from the same tables. -/

namespace Sys2Proof

/-! ### Codes -/

/-- The algorithm code of R104. -/
def algCode (a : Alg) : BitVec 4 :=
  match a with
  | .sha224 => 0x1#4
  | .sha256 => 0x2#4
  | .sha384 => 0x3#4
  | .sha512 => 0x4#4
  | .sha3_224 => 0x5#4
  | .sha3_256 => 0x6#4
  | .sha3_384 => 0x7#4
  | .sha3_512 => 0x8#4
  | .ripemd160 => 0x9#4

/-- The algorithm of a 4-bit code; 0x0 and 0xA..0xF are reserved (R104). -/
def algOfCode (c : BitVec 4) : Option Alg :=
  match c.toNat with
  | 0x1 => some .sha224
  | 0x2 => some .sha256
  | 0x3 => some .sha384
  | 0x4 => some .sha512
  | 0x5 => some .sha3_224
  | 0x6 => some .sha3_256
  | 0x7 => some .sha3_384
  | 0x8 => some .sha3_512
  | 0x9 => some .ripemd160
  | _ => none

/-- The 8-bit status code of R410. -/
def statusCode (st : Status) : Byte :=
  match st with
  | .ok => 0x00#8
  | .eopc => 0x01#8
  | .ersv => 0x02#8
  | .ealg => 0x03#8
  | .estate => 0x04#8
  | .elen => 0x05#8
  | .ereg => 0x06#8
  | .eovf => 0x07#8

/-- The register number of R50. -/
def regNumber (r : Reg) : Word64 :=
  match r with
  | .ctxInfo => 0x00#64
  | .ctxCount => 0x01#64
  | .hmacInfo => 0x02#64
  | .ctxS i => BitVec.ofNat 64 (0x10 + i.val)
  | .ctxBufw k => BitVec.ofNat 64 (0x30 + k.val)

/-- The register a number names, compared as a full 64-bit value; every other number is reserved
(R50, R415). -/
def regOfNumber (n : Word64) : Option Reg :=
  if n = 0x00#64 then some .ctxInfo
  else if n = 0x01#64 then some .ctxCount
  else if n = 0x02#64 then some .hmacInfo
  else if h : 0x10 ≤ n.toNat ∧ n.toNat ≤ 0x28 then some (.ctxS ⟨n.toNat - 0x10, by omega⟩)
  else if h : 0x30 ≤ n.toNat ∧ n.toNat ≤ 0x41 then some (.ctxBufw ⟨n.toNat - 0x30, by omega⟩)
  else none

/-! ### The fields of the command word (R101) -/

/-- CW[7:0]. -/
def opcField (cw : Word32) : BitVec 8 := cw.extractLsb' 0 8

/-- CW[11:8]. -/
def algField (cw : Word32) : BitVec 4 := cw.extractLsb' 8 4

/-- CW[18:12]. -/
def outlenField (cw : Word32) : BitVec 7 := cw.extractLsb' 12 7

/-- CW[19]. -/
def fullField (cw : Word32) : BitVec 1 := cw.extractLsb' 19 1

/-- CW[31:20]. -/
def rsvField (cw : Word32) : BitVec 12 := cw.extractLsb' 20 12

/-- The assigned opcodes of R108. -/
inductive Opcode where
  | init | update | final | rdreg | hmacInit | hmacUpdate | hmacFinal | hmacReinit
deriving DecidableEq, Repr

/-- The value of CW.OPC (R108). -/
def opcodeCode (op : Opcode) : BitVec 8 :=
  match op with
  | .init => 0x01#8
  | .update => 0x02#8
  | .final => 0x03#8
  | .rdreg => 0x04#8
  | .hmacInit => 0x11#8
  | .hmacUpdate => 0x12#8
  | .hmacFinal => 0x13#8
  | .hmacReinit => 0x14#8

/-- The opcode a CW.OPC value names; every other value is reserved (R108, R412). -/
def opcodeOfCode (c : BitVec 8) : Option Opcode :=
  match c.toNat with
  | 0x01 => some .init
  | 0x02 => some .update
  | 0x03 => some .final
  | 0x04 => some .rdreg
  | 0x11 => some .hmacInit
  | 0x12 => some .hmacUpdate
  | 0x13 => some .hmacFinal
  | 0x14 => some .hmacReinit
  | _ => none

/-- `usesAlg` of R109. -/
def usesAlg (op : Opcode) : Bool :=
  match op with
  | .init | .hmacInit => true
  | .update | .final | .rdreg | .hmacUpdate | .hmacFinal | .hmacReinit => false

/-- `usesOut` of R109. -/
def usesOut (op : Opcode) : Bool :=
  match op with
  | .final | .hmacFinal => true
  | .init | .update | .rdreg | .hmacInit | .hmacUpdate | .hmacReinit => false

/-- `usesArg` of R109. -/
def usesArg (op : Opcode) : Bool :=
  match op with
  | .update | .rdreg | .hmacInit | .hmacUpdate => true
  | .init | .final | .hmacFinal | .hmacReinit => false

/-- The opcodes whose command carries a payload of ARG bytes (R103). -/
def takesPayload (op : Opcode) : Bool :=
  match op with
  | .update | .hmacInit | .hmacUpdate => true
  | .init | .final | .rdreg | .hmacFinal | .hmacReinit => false

/-- The payload length R103 requires: ARG bytes for UPDATE, HMAC_INIT and HMAC_UPDATE, none "for every
other opcode", the reserved ones among them. -/
def payloadLength (cw : Word32) (arg : Word64) : Nat :=
  match opcodeOfCode (opcField cw) with
  | some op => if takesPayload op then arg.toNat else 0
  | none => 0

/-- The reserved-field condition of R109 and R413: RSV or an unused field is nonzero, or FULL = 1 with
OUTLEN ≠ 0. -/
def reservedNonzero (op : Opcode) (cw : Word32) (arg : Word64) : Bool :=
  rsvField cw != 0#12
    || (algField cw != 0#4 && !usesAlg op)
    || ((outlenField cw != 0#7 || fullField cw != 0#1) && !usesOut op)
    || (arg != 0#64 && !usesArg op)
    || (fullField cw == 1#1 && outlenField cw != 0#7)

/-! ### Decoding -/

/-- Why a transaction is not a command. -/
inductive DecodeError where
  /-- The payload's length is not the one R103 requires: "not a command of this block" (R103, R472). -/
  | payloadLength
  /-- The decode check that failed, with its status: EOPC, ERSV, EALG or EREG (R109, R411). -/
  | status (st : Status)
deriving DecidableEq, Repr

/-- The output-length operand (R101, R105). -/
def outLenOfFields (cw : Word32) : OutLen :=
  if fullField cw = 1#1 then .full else .bytes (outlenField cw)

/-- The operands of an assigned opcode whose reserved fields are in order: EALG and EREG are raised here
(R109, R414, R415). -/
def decodeOperands (op : Opcode) (t : Transaction) : Except DecodeError Instr :=
  match op with
  | .init =>
    match algOfCode (algField t.cw) with
    | none => .error (.status .ealg)
    | some a => .ok (.init a)
  | .update => .ok (.update t.payload)
  | .final => .ok (.final (outLenOfFields t.cw))
  | .rdreg =>
    match regOfNumber t.arg with
    | none => .error (.status .ereg)
    | some r => .ok (.rdreg r)
  | .hmacInit =>
    match algOfCode (algField t.cw) with
    | none => .error (.status .ealg)
    | some a => .ok (.hmacInit a t.payload)
  | .hmacUpdate => .ok (.hmacUpdate t.payload)
  | .hmacFinal => .ok (.hmacFinal (outLenOfFields t.cw))
  | .hmacReinit => .ok .hmacReinit

/-- Decoding, total over all command words, arguments and payloads (R109). The payload's length is looked
at first, because a transaction that fails it is no command at all (R103); then the checks run in the
order of R411. -/
def decode (t : Transaction) : Except DecodeError Instr :=
  if t.payload.length = payloadLength t.cw t.arg then
    match opcodeOfCode (opcField t.cw) with
    | none => .error (.status .eopc)
    | some op =>
      if reservedNonzero op t.cw t.arg then .error (.status .ersv)
      else decodeOperands op t
  else .error .payloadLength

/-! ### Encoding -/

/-- A command word from its fields, RSV = 0 (R101). -/
def packCw (op : Opcode) (alg : BitVec 4) (outlen : BitVec 7) (full : BitVec 1) : Word32 :=
  (0#12 ++ full ++ outlen ++ alg ++ opcodeCode op : BitVec (12 + 1 + 7 + 4 + 8))

/-- CW.OUTLEN of an output-length operand; FULL = 1 requires OUTLEN = 0 (R111). -/
def outlenOf (l : OutLen) : BitVec 7 :=
  match l with
  | .full => 0#7
  | .bytes n => n

/-- CW.FULL of an output-length operand. -/
def fullOf (l : OutLen) : BitVec 1 :=
  match l with
  | .full => 1#1
  | .bytes _ => 0#1

/-- ARG as a byte count (R102). -/
def countArg (m : Bytes) : Word64 := BitVec.ofNat 64 m.length

/-- The transaction of a command (R101 to R103, R108, R113). -/
def encode (i : Instr) : Transaction :=
  match i with
  | .init a => ⟨packCw .init (algCode a) 0 0, 0, []⟩
  | .update m => ⟨packCw .update 0 0 0, countArg m, m⟩
  | .final l => ⟨packCw .final 0 (outlenOf l) (fullOf l), 0, []⟩
  | .rdreg r => ⟨packCw .rdreg 0 0 0, regNumber r, []⟩
  | .hmacInit a key => ⟨packCw .hmacInit (algCode a) 0 0, countArg key, key⟩
  | .hmacUpdate m => ⟨packCw .hmacUpdate 0 0 0, countArg m, m⟩
  | .hmacFinal l => ⟨packCw .hmacFinal 0 (outlenOf l) (fullOf l), 0, []⟩
  | .hmacReinit => ⟨packCw .hmacReinit 0 0 0, 0, []⟩

/-! ### Words as spec/opcode_table.json numbers them -/

/-- The transaction whose bits are w, nbits of them given and the rest 0: bits 31..0 are CW, bits 95..32
are ARG, and from bit 96 on the payload's bytes follow, byte 0 lowest (R112 gives the order of the three
parts). The payload has the length R103 requires. -/
def transactionOfTableWord (nbits w : Nat) : Transaction :=
  let v := w % 2 ^ nbits
  let cw : Word32 := BitVec.ofNat 32 v
  let arg : Word64 := BitVec.ofNat 64 (v / 2 ^ 32)
  ⟨cw, arg, (List.range (payloadLength cw arg)).map fun i => BitVec.ofNat 8 (v / 2 ^ (96 + 8 * i))⟩

/-- The instruction the decoder reads from a word of spec/opcode_table.json. -/
def decodeTableWord (nbits w : Nat) : Option Instr :=
  match decode (transactionOfTableWord nbits w) with
  | .ok i => some i
  | .error _ => none

end Sys2Proof
end

