-- ==== Sys2Proof/Machine/Algorithm.lean ====
section
/-! DEFINITION. The per-algorithm constants (00_scope.md rules R8, R11) and the codes the register view
shows (10_state.md rules R30, R34, R51). No implementation may choose any of them (R8, R12). -/

namespace Sys2Proof.Machine

/-- The family of an algorithm (R8). -/
def familyOf (a : Alg) : Family :=
  match a with
  | .sha224 | .sha256 => .sha2_32
  | .sha384 | .sha512 => .sha2_64
  | .sha3_224 | .sha3_256 | .sha3_384 | .sha3_512 => .keccak
  | .ripemd160 => .rmd160

/-- BS(alg) in bytes: the block size, which is the rate for the KECCAK family (R8). -/
def blockSize (a : Alg) : Nat :=
  match a with
  | .sha224 => 64
  | .sha256 => 64
  | .sha384 => 128
  | .sha512 => 128
  | .sha3_224 => 144
  | .sha3_256 => 136
  | .sha3_384 => 104
  | .sha3_512 => 72
  | .ripemd160 => 64

/-- DS(alg) in bytes: the digest size (R8). -/
def digestSize (a : Alg) : Nat :=
  match a with
  | .sha224 => 28
  | .sha256 => 32
  | .sha384 => 48
  | .sha512 => 64
  | .sha3_224 => 28
  | .sha3_256 => 32
  | .sha3_384 => 48
  | .sha3_512 => 64
  | .ripemd160 => 20

/-- LF in bytes: the length field of a family's padding; the KECCAK family has none (R8). -/
def lengthFieldSize (f : Family) : Nat :=
  match f with
  | .sha2_32 => 8
  | .sha2_64 => 16
  | .keccak => 0
  | .rmd160 => 8

/-- MAXLEN of an algorithm in bytes (R11). -/
def maxLen (a : Alg) : Nat :=
  match familyOf a with
  | .sha2_32 | .rmd160 => 2 ^ 61 - 1
  | .sha2_64 | .keccak => 2 ^ 64 - 1

/-- BS of a context's algorithm field; 0 where the field is 0, as CTX_INFO shows it (R51). -/
def blockSizeOf (o : Option Alg) : Nat :=
  match o with
  | none => 0
  | some a => blockSize a

/-- DS of a context's algorithm field; 0 where the field is 0, as CTX_INFO shows it (R51). -/
def digestSizeOf (o : Option Alg) : Nat :=
  match o with
  | none => 0
  | some a => digestSize a

/-- MAXLEN of a context's algorithm field. The spec gives it for the nine algorithms only; it is read in
phase ABSORBING, where the field is never 0 in a state that a run reaches (R35(a); log entry 4). -/
def maxLenOf (o : Option Alg) : Nat :=
  match o with
  | none => 0
  | some a => maxLen a

/-- The 4-bit algorithm field: 0 is none (R30). -/
def algFieldCode (o : Option Alg) : BitVec 4 :=
  match o with
  | none => 0x0#4
  | some a => algCode a

/-- The 2-bit phase field (R30). -/
def phaseCode (p : Phase) : BitVec 2 :=
  match p with
  | .empty => 0#2
  | .absorbing => 1#2
  | .finalized => 2#2

end Sys2Proof.Machine
end

