-- ==== Sys2Proof/Config.lean ====
section
/-! DEFINITION. The parameters the spec leaves to whoever builds the block (00_scope.md rules R9, R10).
Everything else of R8 to R12 is fixed and stands in Machine/Algorithm.lean. -/

namespace Sys2Proof

/-- The parameter KECCAK_SUFFIX of R9: which domain-separation byte the KECCAK family writes at padding.
`sha3` is 0x06 (FIPS 202), `keccak` is 0x01 (original Keccak padding); the bytes are `Machine.suffixByte`.
The value is fixed when the block is built. The model carries it in `State.keccakSuffix`, which no step
changes, so that one model serves both builds and a statement over all states covers both (log entry 3). -/
inductive KeccakSuffix where
  | sha3 | keccak
deriving DecidableEq, Repr

/-- The default of R9: "This spec's default is 0x06". -/
def Config.defaultSuffix : KeccakSuffix := .sha3

end Sys2Proof
end

