-- ==== Sys2Proof/Machine/Primitives.lean ====
section
/-! DEFINITION. The word-domain primitives (40_primitives.md). Modular addition (R147) and the bitwise
operations (R148) are `+`, `&&&`, `|||`, `^^^` and `~~~` of BitVec. -/

namespace Sys2Proof.Machine

/-- `ROTR_w(x, n)` (R140). -/
def rotr {w : Nat} (x : BitVec w) (n : Nat) : BitVec w :=
  let k := n % w
  if k = 0 then x else (x >>> k) ||| (x <<< (w - k))

/-- `ROTL_w(x, n)` (R141). -/
def rotl {w : Nat} (x : BitVec w) (n : Nat) : BitVec w := rotr x (w - n % w)

/-- `SHR_w(x, n)`: zeros enter at the top (R142). -/
def shr {w : Nat} (x : BitVec w) (n : Nat) : BitVec w := x >>> n

/-- A byte string read as a number, most significant byte first. -/
def beNat (b : Bytes) : Nat := b.foldl (fun acc v => acc * 256 + v.toNat) 0

/-- A byte string read as a number, least significant byte first. -/
def leNat (b : Bytes) : Nat := b.foldr (fun v acc => v.toNat + 256 * acc) 0

/-- `BE_w(b)`, for b of w/8 bytes (R143). -/
def beWord (w : Nat) (b : Bytes) : BitVec w := BitVec.ofNat w (beNat b)

/-- `LE_w(b)`, for b of w/8 bytes (R144). -/
def leWord (w : Nat) (b : Bytes) : BitVec w := BitVec.ofNat w (leNat b)

/-- `BEbytes_w(x)` (R145). -/
def beBytes {w : Nat} (x : BitVec w) : Bytes :=
  (List.range (w / 8)).map fun i => x.extractLsb' (w - 8 - 8 * i) 8

/-- `LEbytes_w(x)` (R146). -/
def leBytes {w : Nat} (x : BitVec w) : Bytes :=
  (List.range (w / 8)).map fun i => x.extractLsb' (8 * i) 8

/-- Bytes `blk[i .. i + n)` (R15). -/
def slice (blk : Bytes) (i n : Nat) : Bytes := (blk.drop i).take n

/-- The vector whose element i is `f i`. -/
def vecOf {α : Type} {n : Nat} (f : Fin n → α) : Vector α n := ⟨(List.ofFn f).toArray, by simp⟩

/-- `m XOR rep(b, |m|)`, byte by byte (R15, R361). -/
def xorRep (m : Bytes) (b : Byte) : Bytes := m.map (· ^^^ b)

end Sys2Proof.Machine
end

