-- ==== Sys2Proof/Machine/Keccak.lean ====
section
/-! DEFINITION. The Keccak-f[1600] permutation and the parts of the sponge that work on lanes and bytes
(42_keccak.md). Absorbing into a context is in Machine/Context.lean. -/

namespace Sys2Proof.Machine

/-- The 25 lanes; lane A[x, y] is number x + 5·y (R230). -/
abbrev Lanes := Vector Word64 25

/-- `A[x, y]`, the indices mod 5 (R230). -/
def laneAt (s : Lanes) (x y : Nat) : Word64 := s[x % 5 + 5 * (y % 5)]

/-- The state whose lane A[x, y] is `f x y`, for x, y in 0..4. -/
def lanesOf (f : Nat → Nat → Word64) : Lanes := vecOf fun i => f (i.val % 5) (i.val / 5)

/-! ### The five step mappings (R231 to R237) -/

/-- `f x` for x in 0..4. -/
def columns (f : Nat → Word64) : List Word64 := [f 0, f 1, f 2, f 3, f 4]

/-- `C[0..4]` of theta: the parity of each column (R231). -/
def thetaC (s : Lanes) : List Word64 :=
  columns fun x => laneAt s x 0 ^^^ laneAt s x 1 ^^^ laneAt s x 2 ^^^ laneAt s x 3 ^^^ laneAt s x 4

/-- `D[0..4]` of theta, `C[x-1] ^ ROTL_64(C[x+1], 1)`; x - 1 mod 5 is x + 4 mod 5 (R231). -/
def thetaD (c : List Word64) : List Word64 :=
  columns fun x => c.getD ((x + 4) % 5) 0 ^^^ rotl (c.getD ((x + 1) % 5) 0) 1

/-- theta (R231). -/
def theta (s : Lanes) : Lanes :=
  let d := thetaD (thetaC s)
  lanesOf fun x y => laneAt s x y ^^^ d.getD x 0

/-- The rotation offsets `RHO[x, y]`, listed by lane number x + 5·y (R233). -/
def rhoOffsets : List Nat :=
  [0, 1, 62, 28, 27] ++
  [36, 44, 6, 55, 20] ++
  [3, 10, 43, 25, 39] ++
  [41, 45, 15, 21, 8] ++
  [18, 2, 61, 56, 14]

/-- `RHO[x, y]` (R233). -/
def rhoAt (x y : Nat) : Nat := rhoOffsets.getD (x + 5 * y) 0

/-- rho (R232). -/
def rho (s : Lanes) : Lanes := lanesOf fun x y => rotl (laneAt s x y) (rhoAt x y)

/-- pi: `A'[x, y] = A[(x + 3y) mod 5, x]` (R234). -/
def pi (s : Lanes) : Lanes := lanesOf fun x y => laneAt s (x + 3 * y) x

/-- chi (R235). -/
def chi (s : Lanes) : Lanes :=
  lanesOf fun x y => laneAt s x y ^^^ (~~~(laneAt s (x + 1) y) &&& laneAt s (x + 2) y)

/-- The round constants `RC[0..23]` (R237). -/
def roundConstants : List Word64 :=
  [0x0000000000000001#64, 0x0000000000008082#64, 0x800000000000808a#64, 0x8000000080008000#64,
   0x000000000000808b#64, 0x0000000080000001#64, 0x8000000080008081#64, 0x8000000000008009#64] ++
  [0x000000000000008a#64, 0x0000000000000088#64, 0x0000000080008009#64, 0x000000008000000a#64,
   0x000000008000808b#64, 0x800000000000008b#64, 0x8000000000008089#64, 0x8000000000008003#64] ++
  [0x8000000000008002#64, 0x8000000000000080#64, 0x000000000000800a#64, 0x800000008000000a#64,
   0x8000000080008081#64, 0x8000000000008080#64, 0x0000000080000001#64, 0x8000000080008008#64]

/-- iota with the constant of the round (R236). -/
def iota (s : Lanes) (rc : Word64) : Lanes := s.set 0 (s[0] ^^^ rc)

/-! ### The permutation (R238) -/

/-- One round: the five steps in order (R238). -/
def keccakRound (s : Lanes) (rc : Word64) : Lanes := iota (chi (pi (rho (theta s)))) rc

/-- `KeccakF`: 24 rounds (R238). -/
def keccakF (s : Lanes) : Lanes := roundConstants.foldl keccakRound s

/-! ### Sponge (R240 to R242) -/

/-- The XOR of a rate block into the first |blk|/8 lanes, lane i with `LE_64(blk[8i .. 8i+8))`; the
capacity lanes stay (R240). -/
def xorBlock (s : Lanes) (blk : Bytes) : Lanes :=
  vecOf fun i =>
    if i.val < blk.length / 8 then s[i] ^^^ leWord 64 (slice blk (8 * i.val) 8) else s[i]

/-- Absorbing one block: XOR, then permute (R240). -/
def keccakAbsorb (s : Lanes) (blk : Bytes) : Lanes := keccakF (xorBlock s blk)

/-- The byte KECCAK_SUFFIX (R9). -/
def suffixByte (k : KeccakSuffix) : Byte :=
  match k with
  | .sha3 => 0x06#8
  | .keccak => 0x01#8

/-- The padding block P for the b = |tail| buffered bytes, b < BS (R241). Where b = BS − 1 the two XORs
hit the same byte. -/
def keccakPadBlock (k : KeccakSuffix) (bs : Nat) (tail : Bytes) : Bytes :=
  let b := tail.length
  ((tail ++ zeros (bs - b)).modify b (· ^^^ suffixByte k)).modify (bs - 1) (· ^^^ 0x80#8)

end Sys2Proof.Machine
end

