-- ==== Sys2Proof/Machine/Ripemd160.lean ====
section
/-! DEFINITION. The RIPEMD-160 dual-line compressor (43_ripemd160.md). -/

namespace Sys2Proof.Machine

/-! ### Round functions and tables (R280 to R283) -/

/-- `f(j, x, y, z)` (R280). -/
def rmdF (j : Nat) (x y z : Word32) : Word32 :=
  if j < 16 then x ^^^ y ^^^ z
  else if j < 32 then (x &&& y) ||| (~~~x &&& z)
  else if j < 48 then (x ||| ~~~y) ^^^ z
  else if j < 64 then (x &&& z) ||| (y &&& ~~~z)
  else x ^^^ (y ||| ~~~z)

/-- `RL[0..79]`: message-word selection of the left line (R281). -/
def rmdRL : List Nat :=
  [0, 1, 2, 3, 4, 5, 6, 7, 8, 9, 10, 11, 12, 13, 14, 15] ++
  [7, 4, 13, 1, 10, 6, 15, 3, 12, 0, 9, 5, 2, 14, 11, 8] ++
  [3, 10, 14, 4, 9, 15, 8, 1, 2, 7, 0, 6, 13, 11, 5, 12] ++
  [1, 9, 11, 10, 0, 8, 12, 4, 13, 3, 7, 15, 14, 5, 6, 2] ++
  [4, 0, 5, 9, 7, 12, 2, 10, 14, 1, 3, 8, 11, 6, 15, 13]

/-- `RR[0..79]`: message-word selection of the right line (R281). -/
def rmdRR : List Nat :=
  [5, 14, 7, 0, 9, 2, 11, 4, 13, 6, 15, 8, 1, 10, 3, 12] ++
  [6, 11, 3, 7, 0, 13, 5, 10, 14, 15, 8, 12, 4, 9, 1, 2] ++
  [15, 5, 1, 3, 7, 14, 6, 9, 11, 8, 12, 2, 10, 0, 4, 13] ++
  [8, 6, 4, 1, 3, 11, 15, 0, 5, 12, 2, 13, 9, 7, 10, 14] ++
  [12, 15, 10, 4, 1, 5, 8, 7, 6, 2, 13, 14, 0, 3, 9, 11]

/-- `SL[0..79]`: rotation amounts of the left line (R282). -/
def rmdSL : List Nat :=
  [11, 14, 15, 12, 5, 8, 7, 9, 11, 13, 14, 15, 6, 7, 9, 8] ++
  [7, 6, 8, 13, 11, 9, 7, 15, 7, 12, 15, 9, 11, 7, 13, 12] ++
  [11, 13, 6, 7, 14, 9, 13, 15, 14, 8, 13, 6, 5, 12, 7, 5] ++
  [11, 12, 14, 15, 14, 15, 9, 8, 9, 14, 5, 6, 8, 6, 5, 12] ++
  [9, 15, 5, 11, 6, 8, 13, 12, 5, 12, 13, 14, 11, 8, 5, 6]

/-- `SR[0..79]`: rotation amounts of the right line (R282). -/
def rmdSR : List Nat :=
  [8, 9, 9, 11, 13, 15, 15, 5, 7, 7, 8, 11, 14, 14, 12, 6] ++
  [9, 13, 15, 7, 12, 8, 9, 11, 7, 7, 12, 7, 6, 15, 13, 11] ++
  [9, 7, 15, 11, 8, 6, 6, 14, 12, 13, 5, 14, 13, 13, 7, 5] ++
  [15, 5, 8, 11, 14, 14, 6, 14, 6, 9, 12, 9, 12, 5, 15, 8] ++
  [8, 5, 12, 9, 12, 5, 14, 6, 8, 13, 6, 5, 15, 13, 11, 11]

/-- `KL[0..4]`: the left line's constant of each round (R283). -/
def rmdKL : List Word32 := [0x00000000#32, 0x5a827999#32, 0x6ed9eba1#32, 0x8f1bbcdc#32, 0xa953fd4e#32]

/-- `KR[0..4]`: the right line's constant of each round (R283). -/
def rmdKR : List Word32 := [0x50a28be6#32, 0x5c4dd124#32, 0x6d703ef3#32, 0x7a6d76e9#32, 0x00000000#32]

/-! ### Compression (R284 to R287) -/

/-- Five words: a chaining value H[0..4], or one line's variables (A, B, C, D, E) (R284, R285). -/
structure Words5 where
  a : Word32
  b : Word32
  c : Word32
  d : Word32
  e : Word32
deriving DecidableEq, Repr

/-- H[0], H[1], ..., H[4]. -/
def words5ToList (v : Words5) : List Word32 := [v.a, v.b, v.c, v.d, v.e]

/-- One step of one line: F the function value, xw the message word, k the constant, s the rotation
(R284). -/
def rmdStep (v : Words5) (f xw k : Word32) (s : Nat) : Words5 :=
  let t := rotl (v.a + f + xw + k) s + v.e
  ⟨v.e, t, v.b, rotl v.c 10, v.d⟩

/-- `X[0..15]`, X[t] = `LE_32(blk[4t .. 4t+4))` (R285). -/
def rmdWords (blk : Bytes) : List Word32 := (List.range 16).map fun t => leWord 32 (slice blk (4 * t) 4)

/-- Step j of the left line (R285). -/
def rmdLeftStep (x : List Word32) (v : Words5) (j : Nat) : Words5 :=
  rmdStep v (rmdF j v.b v.c v.d) (x.getD (rmdRL.getD j 0) 0) (rmdKL.getD (j / 16) 0) (rmdSL.getD j 0)

/-- Step j of the right line, which applies the functions in reverse order (R280, R285). -/
def rmdRightStep (x : List Word32) (v : Words5) (j : Nat) : Words5 :=
  rmdStep v (rmdF (79 - j) v.b v.c v.d) (x.getD (rmdRR.getD j 0) 0) (rmdKR.getD (j / 16) 0)
    (rmdSR.getD j 0)

/-- The left line after its 80 steps, over a copy of H (R285, R286). -/
def rmdLeftLine (hs : Words5) (blk : Bytes) : Words5 :=
  (List.range 80).foldl (rmdLeftStep (rmdWords blk)) hs

/-- The right line after its 80 steps, over a copy of H (R285, R286). -/
def rmdRightLine (hs : Words5) (blk : Bytes) : Words5 :=
  (List.range 80).foldl (rmdRightStep (rmdWords blk)) hs

/-- `CompressRMD(H, blk)`: both lines, then the combination (R285). -/
def compressRmd (hs : Words5) (blk : Bytes) : Words5 :=
  let l := rmdLeftLine hs blk
  let r := rmdRightLine hs blk
  ⟨hs.b + l.c + r.d, hs.c + l.d + r.e, hs.d + l.e + r.a, hs.e + l.a + r.b, hs.a + l.b + r.c⟩

/-- `IVRMD[0..4]` (R287). -/
def ivRmd : Words5 := ⟨0x67452301#32, 0xefcdab89#32, 0x98badcfe#32, 0x10325476#32, 0xc3d2e1f0#32⟩

end Sys2Proof.Machine
end

