-- ==== Sys2Proof/Machine/State.lean ====
section
/-! DEFINITION. The state of one instance of the block (10_state.md), its reset value (rule R60) and the
reasons a step can stop. -/

namespace Sys2Proof.Machine

/-- A context record (R30). Block and digest size are functions of `alg`, not fields (R30).

`alg` is the 4-bit field, `none` for its value 0; the other values the field may hold are 1 to 9, which are
the nine algorithms. -/
structure Context where
  /-- c.alg: the algorithm selected by the last InitCtx; `none` is 0 (R30). -/
  alg : Option Alg
  /-- c.phase (R34). -/
  phase : Phase
  /-- c.S: the 25 × 64-bit state store, which each family reads through its own view (R31). -/
  store : Vector Word64 25
  /-- c.buf: the 144-byte block buffer (R32). -/
  buf : Vector Byte 144
  /-- c.buflen: the number of valid bytes in `buf`, 8 bits (R30). -/
  buflen : BitVec 8
  /-- c.count: bytes absorbed since InitCtx, 64 bits (R33). -/
  count : Word64
deriving DecidableEq, Repr

/-- The HMAC unit (R40). -/
structure HmacUnit where
  /-- HM.alg; `none` is 0. -/
  alg : Option Alg
  /-- HM.phase. -/
  phase : Phase
  /-- HM.INNER: the live inner context. -/
  inner : Context
  /-- HM.OUTER: the live outer context. -/
  outer : Context
  /-- HM.SINNER: the saved inner context, the reinit baseline. -/
  sinner : Context
  /-- HM.SOUTER: the saved outer context, the reinit baseline. -/
  souter : Context
  /-- HM.IPAD: K' ^ 0x36 repeated, in bytes 0..BS−1. -/
  ipad : Vector Byte 144
  /-- HM.OPAD: K' ^ 0x5c repeated, in bytes 0..BS−1. -/
  opad : Vector Byte 144
deriving DecidableEq, Repr

/-- What the host does next to an instance: it sends a command (R100), or it asserts reset (R460). Reset may
come between commands (`none`), or while a command is in progress or waits for the rest of its payload
(`some t`; R424, R460, R472). -/
inductive Input where
  | command (t : Transaction)
  | reset (inProgress : Option Transaction)
deriving DecidableEq, Repr

/-- One instance of the block with its command channel.

`ctx` and `hm` are the whole architectural state (R36, R40, R57). The other three fields are the model's
own: the build parameter (R9), what the host will send, and what the block has answered (R39: a response
is not architectural state, and no command reads it back). -/
structure State where
  /-- CTX, the host-visible hash context (R36). -/
  ctx : Context
  /-- HM, the HMAC unit (R40). -/
  hm : HmacUnit
  /-- KECCAK_SUFFIX, fixed when the block is built (R9, R464; log entry 3). -/
  keccakSuffix : KeccakSuffix
  /-- The command channel, host to block: the inputs still to come, the next one first (R82, R100). -/
  inputs : List Input
  /-- The command channel, block to host: the responses delivered, the oldest first (R107, R470). -/
  responses : List Response
deriving DecidableEq, Repr

/-- The reasons a step of the model faults: there are none. "There are no traps" (R421), "the block has no
internal failure and no undefined result for any command it accepts" (R432), and every error is a status in
a response, which is a next state (R433). -/
inductive Fault where
deriving DecidableEq, Repr

/-- The reasons a step of the model is refused. -/
inductive Refusal where
  /-- The step's own refusal of a transaction whose payload length differs from R103: "no step of the block
  is defined for it" (R472). Raised by `step` alone, never by an instruction's meaning. Safe: the real
  block would wait, and no claim of completion follows. -/
  | payloadLength
  /-- An instruction without a meaning, by its mnemonic. No arm of `exec` raises it: every instruction has
  its meaning. Safe. -/
  | notModelled (mnemonic : String)
deriving DecidableEq, Repr

/-- A context record after reset (R60). -/
def Context.reset : Context where
  alg := none
  phase := .empty
  store := Vector.replicate 25 0x0#64
  buf := Vector.replicate 144 0x00#8
  buflen := 0#8
  count := 0#64

/-- The HMAC unit after reset (R60). -/
def HmacUnit.reset : HmacUnit where
  alg := none
  phase := .empty
  inner := Context.reset
  outer := Context.reset
  sinner := Context.reset
  souter := Context.reset
  ipad := Vector.replicate 144 0x00#8
  opad := Vector.replicate 144 0x00#8

/-- An instance right after reset (R60, R461): idle, with KECCAK_SUFFIX at its default (R9), nothing sent
and nothing answered yet. -/
def State.reset : State where
  ctx := Context.reset
  hm := HmacUnit.reset
  keccakSuffix := Config.defaultSuffix
  inputs := []
  responses := []

end Sys2Proof.Machine
end

