-- ==== Sys2Proof/Machine/Context.lean ====
section
/-! DEFINITION. The context-machine primitives (44_context.md, section 1): InitCtx, ProcessBlock, Absorb,
Feed, the paddings, Finalize and Digest, on any context record. -/

namespace Sys2Proof.Machine

/-! ### The views of the state store (R31) -/

/-- `H[i] = c.S[i][31:0]`, i = 0..7 (R31, SHA2-32). -/
def viewSha32 (s : Vector Word64 25) : Words8 32 :=
  ⟨s[0].setWidth 32, s[1].setWidth 32, s[2].setWidth 32, s[3].setWidth 32,
   s[4].setWidth 32, s[5].setWidth 32, s[6].setWidth 32, s[7].setWidth 32⟩

/-- `H[i] = c.S[i]`, i = 0..7 (R31, SHA2-64). -/
def viewSha64 (s : Vector Word64 25) : Words8 64 :=
  ⟨s[0], s[1], s[2], s[3], s[4], s[5], s[6], s[7]⟩

/-- `H[i] = c.S[i][31:0]`, i = 0..4 (R31, RMD160). -/
def viewRmd (s : Vector Word64 25) : Words5 :=
  ⟨s[0].setWidth 32, s[1].setWidth 32, s[2].setWidth 32, s[3].setWidth 32, s[4].setWidth 32⟩

/-- `c.S[i] <- ws[i]` for i < |ws|; the other words stay (R330). -/
def writeWords (s : Vector Word64 25) (ws : List Word64) : Vector Word64 25 :=
  vecOf fun i => ws.getD i.val s[i]

/-- `zext_64` of 32-bit words. -/
def zext64 (ws : List Word32) : List Word64 := ws.map (·.setWidth 64)

/-- The words a chaining value puts into the store: a family's words, each zero-extended to 64 bits. -/
def zeroStore : Vector Word64 25 := Vector.replicate 25 0x0#64

/-- `IV(a)`: the 25-word store of a new context (R321). -/
def ivStore (a : Alg) : Vector Word64 25 :=
  match a with
  | .sha224 => writeWords zeroStore (zext64 (words8ToList iv224))
  | .sha256 => writeWords zeroStore (zext64 (words8ToList iv256))
  | .sha384 => writeWords zeroStore (words8ToList iv384)
  | .sha512 => writeWords zeroStore (words8ToList iv512)
  | .sha3_224 | .sha3_256 | .sha3_384 | .sha3_512 => zeroStore
  | .ripemd160 => writeWords zeroStore (zext64 (words5ToList ivRmd))

/-- `InitCtx(c, a)`: it writes every field, so the old record does not matter (R320). -/
def initCtx (a : Alg) : Context where
  alg := some a
  phase := .absorbing
  store := ivStore a
  buf := Vector.replicate 144 0x00#8
  buflen := 0#8
  count := 0#64

/-! ### Processing and absorbing (R330, R331, R338) -/

/-- The store after one compression or permutation step of a family (R330). -/
def processStore (f : Family) (s : Vector Word64 25) (blk : Bytes) : Vector Word64 25 :=
  match f with
  | .sha2_32 => writeWords s (zext64 (words8ToList (compress256 (viewSha32 s) blk)))
  | .sha2_64 => writeWords s (words8ToList (compress512 (viewSha64 s) blk))
  | .keccak => keccakAbsorb s blk
  | .rmd160 => writeWords s (zext64 (words5ToList (compressRmd (viewRmd s) blk)))

/-- `ProcessBlock(c, blk)`, |blk| = BS(c.alg) (R330). A context with no algorithm has no block function; no
command processes a block in such a context in a state that a run reaches (R35(a); log entry 4). -/
def processBlock (c : Context) (blk : Bytes) : Context :=
  match c.alg with
  | none => c
  | some a => { c with store := processStore (familyOf a) c.store blk }

/-- The bytes `c.buf[0 .. n)`. -/
def bufBytes (c : Context) (n : Nat) : Bytes := c.buf.toList.take n

/-- Absorb's first two lines for one byte: put it into the buffer and count it (R331). -/
def pushByte (c : Context) (v : Byte) : Context :=
  { c with buf := c.buf.setIfInBounds c.buflen.toNat v, buflen := c.buflen + 1#8 }

/-- Absorb for one byte: when the buffer holds BS bytes, the block is processed at once (R331). -/
def absorbByte (c : Context) (v : Byte) : Context :=
  let p := pushByte c v
  if p.buflen.toNat = blockSizeOf p.alg then
    { processBlock p (bufBytes p (blockSizeOf p.alg)) with buflen := 0#8 }
  else p

/-- `Absorb(c, m)`: byte by byte, in order (R331). -/
def absorb (c : Context) (m : Bytes) : Context := m.foldl absorbByte c

/-- `Feed(c, m)`: Absorb, then count (R338). -/
def feed (c : Context) (m : Bytes) : Context :=
  let p := absorb c m
  { p with count := p.count + BitVec.ofNat 64 m.length }

/-! ### Padding (R333, R334; 42_keccak.md R241) -/

/-- `LenField(c)`: the bit length 8·count in LF bytes; big-endian for SHA-2, little-endian for RIPEMD-160
(R334). The KECCAK family uses none (R244). -/
def lenField (f : Family) (count : Word64) : Bytes :=
  match f with
  | .sha2_32 => beBytes (BitVec.ofNat 64 (8 * count.toNat))
  | .sha2_64 => beBytes (BitVec.ofNat 128 (8 * count.toNat))
  | .keccak => []
  | .rmd160 => leBytes (BitVec.ofNat 64 (8 * count.toNat))

/-- `while c.buflen != target: Absorb(c, [0x00])`, at most n times (R333). The buffer length takes each of
the BS values below BS in turn, so BS turns are enough. -/
def padZeros (target : Nat) (n : Nat) (c : Context) : Context :=
  match n with
  | 0 => c
  | n + 1 => if c.buflen.toNat = target then c else padZeros target n (absorb c [0x00#8])

/-- `MDPad(c)` for a context of algorithm a (R333). -/
def mdPad (a : Alg) (c : Context) : Context :=
  let f := familyOf a
  let c1 := absorb c [0x80#8]
  let c2 := padZeros (blockSize a - lengthFieldSize f) (blockSize a) c1
  absorb c2 (lenField f c2.count)

/-- `KeccakPad(c)` for a context of algorithm a: exactly one block, whatever is buffered (R241). -/
def keccakPad (k : KeccakSuffix) (a : Alg) (c : Context) : Context :=
  let p := keccakPadBlock k (blockSize a) (bufBytes c c.buflen.toNat)
  { processBlock c p with buflen := 0#8 }

/-! ### Digest and Finalize (R332, R336, R337) -/

/-- The bytes of the whole state of a family, before truncation (R194, R242, R288). -/
def serialise (f : Family) (s : Vector Word64 25) : Bytes :=
  match f with
  | .sha2_32 => (words8ToList (viewSha32 s)).flatMap beBytes
  | .sha2_64 => (words8ToList (viewSha64 s)).flatMap beBytes
  | .keccak => s.toList.flatMap leBytes
  | .rmd160 => (words5ToList (viewRmd s)).flatMap leBytes

/-- `Digest(c)` for a context of algorithm a: the leading DS bytes (R336). -/
def digest (a : Alg) (c : Context) : Bytes := (serialise (familyOf a) c.store).take (digestSize a)

/-- The padding of an algorithm's family (R332). -/
def padCtx (k : KeccakSuffix) (a : Alg) (c : Context) : Context :=
  match familyOf a with
  | .sha2_32 => mdPad a c
  | .sha2_64 => mdPad a c
  | .keccak => keccakPad k a c
  | .rmd160 => mdPad a c

/-- The context after `Finalize(c)` (R332). A context with no algorithm has nothing to pad (log entry 4). -/
def finalizeCtx (k : KeccakSuffix) (c : Context) : Context :=
  match c.alg with
  | none => { c with phase := .finalized }
  | some a => { padCtx k a c with phase := .finalized }

/-- The digest `Finalize(c)` returns, all DS bytes (R332, R336). -/
def finalizeDigest (k : KeccakSuffix) (c : Context) : Bytes :=
  match c.alg with
  | none => []
  | some a => digest a (finalizeCtx k c)

/-- `HashFn(a, m)`: the digest of a fresh context fed m (R344). -/
def hashFn (k : KeccakSuffix) (a : Alg) (m : Bytes) : Bytes := finalizeDigest k (feed (initCtx a) m)

end Sys2Proof.Machine
end

