-- ==== Sys2Proof/Machine/Operands.lean ====
section
/-! DEFINITION. Operand forms: the output length of FINAL and HMAC_FINAL (30_encoding.md rule R105) and the
register view that RDREG reads (10_state.md rules R50 to R55). Every other operand of a command is an
algorithm code, which the decoder turns into an algorithm, or the payload itself (R102, R103). -/

namespace Sys2Proof.Machine

/-- L in bytes: DS of the context's algorithm if FULL = 1, else OUTLEN zero-extended (R105). -/
def outputLength (o : Option Alg) (l : OutLen) : Nat :=
  match l with
  | .full => digestSizeOf o
  | .bytes n => n.toNat

/-- CTX_INFO (R51): {0 (32), DSIZE (8), BSIZE (8), BUFLEN (8), 0 (2), PHASE (2), ALG (4)}. -/
def ctxInfo (c : Context) : Word64 :=
  (0#32 ++ BitVec.ofNat 8 (digestSizeOf c.alg) ++ BitVec.ofNat 8 (blockSizeOf c.alg) ++ c.buflen
    ++ 0#2 ++ phaseCode c.phase ++ algFieldCode c.alg : BitVec (32 + 8 + 8 + 8 + 2 + 2 + 4))

/-- HMAC_INFO (R53): {0 (58), PHASE (2), ALG (4)}. -/
def hmacInfo (h : HmacUnit) : Word64 :=
  (0#58 ++ phaseCode h.phase ++ algFieldCode h.alg : BitVec (58 + 2 + 4))

/-- The byte of the buffer at position i as the register view shows it: 0 at or beyond buflen (R55). -/
def bufViewByte (c : Context) (i : Nat) : Byte :=
  if i < c.buflen.toNat then c.buf.toList.getD i 0x00#8 else 0x00#8

/-- CTX_BUFW[k]: buffer bytes 8k to 8k + 7, packed little-endian (R55). -/
def ctxBufWord (c : Context) (k : Nat) : Word64 :=
  leWord 64 ((List.range 8).map fun j => bufViewByte c (8 * k + j))

/-- `regview`: the content of a mapped register (R50 to R55, R343). -/
def regView (c : Context) (h : HmacUnit) (r : Reg) : Word64 :=
  match r with
  | .ctxInfo => ctxInfo c
  | .ctxCount => c.count
  | .hmacInfo => hmacInfo h
  | .ctxS i => c.store[i]
  | .ctxBufw k => ctxBufWord c k.val

end Sys2Proof.Machine
end

