-- ==== Sys2Proof/Machine/Flags.lean ====
section
/-! DEFINITION. The block "has no status flags and no condition codes. The only per-command outcome is the
status code in the response" (10_state.md rule R58). This file computes that outcome: the checks a command
makes after decoding, in the order of 60_exceptions.md rule R411 (ESTATE, ELEN, EOVF). -/

namespace Sys2Proof.Machine

/-- The checks of UPDATE and HMAC_UPDATE for n more bytes: the phase (R418), then the byte counter against
MAXLEN (R420). The sum is taken over unbounded naturals (R149). -/
def updateStatus (phase : Phase) (alg : Option Alg) (count : Word64) (n : Nat) : Status :=
  if phase ≠ .absorbing then .estate
  else if count.toNat + n > maxLenOf alg then .eovf
  else .ok

/-- The checks of FINAL and HMAC_FINAL: the phase (R418), then the output length (R419). -/
def finalStatus (phase : Phase) (alg : Option Alg) (l : OutLen) : Status :=
  if phase ≠ .absorbing then .estate
  else if outputLength alg l > digestSizeOf alg then .elen
  else .ok

/-- The check of HMAC_INIT for a key of n bytes: a key that must be hashed is at most MAXLEN long (R370,
R420). -/
def keyStatus (a : Alg) (n : Nat) : Status :=
  if n > blockSize a ∧ n > maxLen a then .eovf else .ok

/-- The check of HMAC_REINIT: a baseline exists in every phase but EMPTY (R373, R418). -/
def reinitStatus (phase : Phase) : Status :=
  if phase = .empty then .estate else .ok

end Sys2Proof.Machine
end

