-- ==== Sys2Proof/Machine/Hmac.lean ====
section
/-! DEFINITION. The HMAC primitives (45_hmac.md, section 1) on an HMAC unit. The scratch context that hashes
a long key is a local value of `hashFn` (R38, R362). -/

namespace Sys2Proof.Machine

/-- `KeyNorm(a, key)`: BS bytes; a key is hashed only when it is strictly longer than BS (R360). -/
def keyNorm (k : KeccakSuffix) (a : Alg) (key : Bytes) : Bytes :=
  let k0 := if key.length > blockSize a then hashFn k a key else key
  k0 ++ zeros (blockSize a - k0.length)

/-- A pad block in its 144-byte register: the given bytes, then zeros (R370, R43). -/
def padRegister (m : Bytes) : Vector Byte 144 := vecOf fun i => m.getD i.val 0x00#8

/-- The unit HMAC_INIT leaves: pads, live contexts, saved contexts, algorithm and phase (R370). It writes
every field, so the old unit does not matter. -/
def loadKey (k : KeccakSuffix) (a : Alg) (key : Bytes) : HmacUnit :=
  let kp := keyNorm k a key
  let ipad := padRegister (xorRep kp 0x36#8)
  let opad := padRegister (xorRep kp 0x5c#8)
  let inner := feed (initCtx a) (ipad.toList.take (blockSize a))
  let outer := feed (initCtx a) (opad.toList.take (blockSize a))
  { alg := some a, phase := .absorbing,
    inner := inner, outer := outer, sinner := inner, souter := outer,
    ipad := ipad, opad := opad }

/-- The outer context of `HmacOut(HM)` after it was fed the whole inner digest (R363). -/
def outerFed (k : KeccakSuffix) (h : HmacUnit) : Context := feed h.outer (finalizeDigest k h.inner)

/-- The MAC that `HmacOut(HM)` returns (R363). -/
def hmacOut (k : KeccakSuffix) (h : HmacUnit) : Bytes := finalizeDigest k (outerFed k h)

/-- The unit after `HmacOut(HM)` and HMAC_FINAL's own phase write (R363, R372). -/
def hmacFinalize (k : KeccakSuffix) (h : HmacUnit) : HmacUnit :=
  { h with
    inner := finalizeCtx k h.inner
    outer := finalizeCtx k (outerFed k h)
    phase := .finalized }

/-- The unit after HMAC_REINIT: the live contexts from the saved ones (R373). -/
def hmacRestore (h : HmacUnit) : HmacUnit :=
  { h with inner := h.sinner, outer := h.souter, phase := .absorbing }

end Sys2Proof.Machine
end

