-- ==== Sys2Proof/Machine/Ops.lean ====
section
/-! DEFINITION. The named operations over the state that commands share: answering a command with success or
with an error, reset, and the two ends of the command channel.

Taking an exception. The block has no traps: "An error status is a response to the host, not a change of
control flow inside the block. No state is saved, no mode changes, nothing is masked and no vector is taken.
'Trap entry' in the checklist's sense is the response of rule R416" (60_exceptions.md rule R421). `raise` is
that entry, the one shared operation. There is no return from it: "There is no trap return and no nesting"
(R422). -/

namespace Sys2Proof.Machine

/-- Deliver a response to the host; responses arrive in command order (R107, R470). -/
def respond (r : Response) (s : State) : State := { s with responses := s.responses ++ [r] }

/-- `raise <Status>`: the command ends with the error status and no state change; the response is
(status, 0, empty) (R17, R416, R421). -/
def raise (st : Status) (s : State) : State := respond ⟨st, 0x0#64, []⟩ s

/-- The response to a command that succeeds with the given value and output bytes (R107, R417). -/
def succeed (value : Word64) (out : Bytes) (s : State) : State := respond ⟨.ok, value, out⟩ s

/-- A command's end: with status OK its state writes take effect at once and its response follows (R417);
with any other status nothing but the error response happens (R416). `s` is the state before the command,
`s'` that state with the command's writes. -/
def complete (st : Status) (value : Word64) (out : Bytes) (s' s : State) :
    Host.Outcome State Fault Refusal :=
  if st = .ok then .next (succeed value out s') else .next (raise st s)

/-- Reset of the instance: every state element takes its reset value; KECCAK_SUFFIX stays; a command in
progress gets no response; what the host sends next and what was answered before are the channel's, not
the instance's (R424, R460, R461). -/
def resetInstance (s : State) : State := { s with ctx := Context.reset, hm := HmacUnit.reset }

/-- One transaction of the command channel, the input already taken off it: refused if its payload breaks
R103 (R472), an error response if a decode check fails (R109, R416), else the decoded command. -/
def transact (run : Instr → State → Host.Outcome State Fault Refusal) (t : Transaction) (s : State) :
    Host.Outcome State Fault Refusal :=
  match decode t with
  | .error .payloadLength => .refused .payloadLength
  | .error (.status st) => .next (raise st s)
  | .ok i => run i s

/-- One step of the instance: idle with its state held while the host sends nothing (R431), else the next
input of the channel, a command or reset (R82, R100, R460). `run` is what a decoded command does. -/
def serve (run : Instr → State → Host.Outcome State Fault Refusal) (s : State) :
    Host.Outcome State Fault Refusal :=
  match s.inputs with
  | [] => .next s
  | .reset _ :: rest => .next (resetInstance { s with inputs := rest })
  | .command t :: rest => transact run t { s with inputs := rest }

/-- The instance with one more transaction at the head of its command channel. -/
def offer (t : Transaction) (s : State) : State := { s with inputs := .command t :: s.inputs }

end Sys2Proof.Machine
end

