-- ==== Sys2Proof/Machine/ContextCommands.lean ====
section
/-! DEFINITION. The commands on the hash context: INIT, UPDATE, FINAL, RDREG (44_context.md, section 2).
None of them reads or writes HM, except that RDREG reads HMAC_INFO (10_state.md rules R44, R53). -/

namespace Sys2Proof.Machine

/-- INIT (R340): legal in every phase. -/
def execInit (a : Alg) (s : State) : Host.Outcome State Fault Refusal :=
  complete .ok 0x0#64 [] { s with ctx := initCtx a } s

/-- UPDATE (R341). -/
def execUpdate (m : Bytes) (s : State) : Host.Outcome State Fault Refusal :=
  complete (updateStatus s.ctx.phase s.ctx.alg s.ctx.count m.length) 0x0#64 []
    { s with ctx := feed s.ctx m } s

/-- FINAL (R342). -/
def execFinal (l : OutLen) (s : State) : Host.Outcome State Fault Refusal :=
  complete (finalStatus s.ctx.phase s.ctx.alg l) 0x0#64
    ((finalizeDigest s.keccakSuffix s.ctx).take (outputLength s.ctx.alg l))
    { s with ctx := finalizeCtx s.keccakSuffix s.ctx } s

/-- RDREG (R343): legal in every phase, no state effect. -/
def execRdreg (r : Reg) (s : State) : Host.Outcome State Fault Refusal :=
  complete .ok (regView s.ctx s.hm r) [] s s

end Sys2Proof.Machine
end

