-- ==== Sys2Proof/Machine/HmacCommands.lean ====
section
/-! DEFINITION. The commands on the HMAC unit: HMAC_INIT, HMAC_UPDATE, HMAC_FINAL, HMAC_REINIT
(45_hmac.md, section 2). None of them reads or writes CTX (10_state.md rule R44). -/

namespace Sys2Proof.Machine

/-- HMAC_INIT (R370): legal in every phase. -/
def execHmacInit (a : Alg) (key : Bytes) (s : State) : Host.Outcome State Fault Refusal :=
  complete (keyStatus a key.length) 0x0#64 [] { s with hm := loadKey s.keccakSuffix a key } s

/-- HMAC_UPDATE (R371): the inner context only. -/
def execHmacUpdate (m : Bytes) (s : State) : Host.Outcome State Fault Refusal :=
  complete (updateStatus s.hm.phase s.hm.alg s.hm.inner.count m.length) 0x0#64 []
    { s with hm := { s.hm with inner := feed s.hm.inner m } } s

/-- HMAC_FINAL (R372). -/
def execHmacFinal (l : OutLen) (s : State) : Host.Outcome State Fault Refusal :=
  complete (finalStatus s.hm.phase s.hm.alg l) 0x0#64
    ((hmacOut s.keccakSuffix s.hm).take (outputLength s.hm.alg l))
    { s with hm := hmacFinalize s.keccakSuffix s.hm } s

/-- HMAC_REINIT (R373). -/
def execHmacReinit (s : State) : Host.Outcome State Fault Refusal :=
  complete (reinitStatus s.hm.phase) 0x0#64 [] { s with hm := hmacRestore s.hm } s

end Sys2Proof.Machine
end

