-- ==== Sys2Proof/Machine/Dispatch.lean ====
section
/-! DEFINITION. The meaning of each command: one arm per constructor of Instr, each one call. -/

namespace Sys2Proof.Machine

def exec (i : Instr) (s : State) : Host.Outcome State Fault Refusal :=
  match i with
  | .init a => Sys2Proof.Machine.execInit a s
  | .update m => Sys2Proof.Machine.execUpdate m s
  | .final l => Sys2Proof.Machine.execFinal l s
  | .rdreg r => Sys2Proof.Machine.execRdreg r s
  | .hmacInit a key => Sys2Proof.Machine.execHmacInit a key s
  | .hmacUpdate m => Sys2Proof.Machine.execHmacUpdate m s
  | .hmacFinal l => Sys2Proof.Machine.execHmacFinal l s
  | .hmacReinit => Sys2Proof.Machine.execHmacReinit s

end Sys2Proof.Machine
end

