-- ==== Sys2Proof/Machine/Step.lean ====
section
/-! DEFINITION. One step of an instance: one input of its command channel (30_encoding.md rule R100,
60_exceptions.md rules R417, R433), and the placing of an instruction where the step takes it from. -/

namespace Sys2Proof.Machine

/-- One step. There is no program counter and no fetch (R56, R87): the next instruction is the next command
on the channel. -/
def step (s : State) : Host.Outcome State Fault Refusal := serve exec s

/-- The state with an instruction word of spec/opcode_table.json as the next command on the channel: "The
commands come from the host on the command channel" (R87; log entry 2). -/
def State.withFetchWord (s : State) (nbits w : Nat) : State := offer (transactionOfTableWord nbits w) s

end Sys2Proof.Machine
end

