-- ==== Sys2Proof/Machine/Device.lean ====
section
/-! DEFINITION. A device of N_INST instances (00_scope.md rule R10, 60_exceptions.md rule R429). N_INST is the
length of the vector; an index into it exists only if it is at least 1, as R10 requires. -/

namespace Sys2Proof.Machine

/-- A device: instances numbered 0..N_INST − 1 by the platform, each with its own copy of every state element
and its own command channel (R10, R429). -/
abbrev Device (nInst : Nat) := Vector State nInst

/-- A device right after every instance's reset (R429: "each has its own reset"). -/
def deviceReset (nInst : Nat) : Device nInst := Vector.replicate nInst State.reset

/-- Instance i takes a step; which instance moves next is the platform's choice (R10, R83). -/
def deviceStep {nInst : Nat} (d : Device nInst) (i : Fin nInst) : Host.Outcome (Device nInst) Fault Refusal :=
  match step d[i] with
  | .next s => .next (d.set i s)
  | .fault r => .fault r
  | .refused r => .refused r

end Sys2Proof.Machine
end

