-- ==== Sys2Proof/Machine/Pseudo.lean ====
section
/-! DEFINITION. The pseudo-commands HASH, HMAC and NOP (30_encoding.md rules R114 to R116) and sequences of
commands. A pseudo-command is no opcode: it stands for the commands it expands to. -/

namespace Sys2Proof.Machine

/-- `HASH <alg>, <n>, <bytes>` (R114). -/
def pseudoHash (a : Alg) (m : Bytes) : List Instr := [.init a, .update m, .final .full]

/-- `HMAC <alg>, <key>, <bytes>, <L>` (R115). -/
def pseudoHmac (a : Alg) (key m : Bytes) (l : OutLen) : List Instr :=
  [.hmacInit a key, .hmacUpdate m, .hmacFinal l]

/-- `NOP` (R116). -/
def pseudoNop : Instr := .rdreg .ctxInfo

/-- Commands one after another, each seeing every write of the earlier ones (R82, R473). -/
def runCommands (is : List Instr) (s : State) : Host.Outcome State Fault Refusal :=
  match is with
  | [] => .next s
  | i :: is =>
    match exec i s with
    | .next t => runCommands is t
    | .fault r => .fault r
    | .refused r => .refused r

/-- The host sends commands: they join the channel behind what is already there, each as the transaction the
encoder gives (R82, R100). -/
def send (is : List Instr) (s : State) : State :=
  { s with inputs := s.inputs ++ is.map fun i => .command (encode i) }

end Sys2Proof.Machine
end

