-- ==== Sys2Proof/Safety.lean ====
section
/-! DEFINITION. What holds of every state a run reaches: the invariants of 10_state.md rule R35 and the rules
on the HMAC unit beside it (R34, R41 to R43, R361, R370). -/

namespace Sys2Proof.Machine

/-- How many words of the state store a family's view uses, from word 0 on (R31). -/
def viewSize (f : Family) : Nat :=
  match f with
  | .sha2_32 => 8
  | .sha2_64 => 8
  | .keccak => 25
  | .rmd160 => 5

/-- The families whose view reads only bits [31:0] of each word (R31). -/
def narrowFamily (f : Family) : Bool :=
  match f with
  | .sha2_32 | .rmd160 => true
  | .sha2_64 | .keccak => false

/-- The invariants of a context whose algorithm is a (R35(b) to (f)). -/
structure LiveContext (a : Alg) (c : Context) : Prop where
  /-- R35(b): the upper halves of a 32-bit family's words are 0. -/
  upperHalvesZero : narrowFamily (familyOf a) = true → ∀ i : Fin 25, c.store[i].toNat < 2 ^ 32
  /-- R35(c): words outside the family's view are 0. -/
  outsideViewZero : ∀ i : Fin 25, viewSize (familyOf a) ≤ i.val → c.store[i] = 0x0#64
  /-- R35(d). -/
  bufferNotFull : c.buflen.toNat < blockSize a
  /-- R35(e). -/
  countBounded : c.count.toNat ≤ maxLen a
  /-- R35(f), first part. -/
  absorbingBuflen : c.phase = .absorbing → c.buflen.toNat = c.count.toNat % blockSize a
  /-- R35(f), second part. -/
  finalizedBuflen : c.phase = .finalized → c.buflen = 0#8

/-- The invariants of a context record (R34, R35). -/
structure Context.Inv (c : Context) : Prop where
  /-- R35(a): no algorithm exactly in phase EMPTY. -/
  algNoneIffEmpty : c.alg = none ↔ c.phase = .empty
  /-- R34: in phase EMPTY the other fields hold their reset values. -/
  emptyIsReset : c.phase = .empty → c = Context.reset
  /-- R35(b) to (f). -/
  live : ∀ a, c.alg = some a → LiveContext a c

/-- The invariants of an HMAC unit whose algorithm is a. -/
structure LiveHmac (a : Alg) (h : HmacUnit) : Prop where
  /-- The four contexts are contexts of a (R370). -/
  innerAlg : h.inner.alg = some a
  outerAlg : h.outer.alg = some a
  /-- The phases of the live contexts follow HM.phase (R42). -/
  innerPhase : h.inner.phase = h.phase
  outerPhase : h.outer.phase = h.phase
  /-- The saved contexts are what HMAC_INIT made of the pads (R41, R370). -/
  savedInner : h.sinner = feed (initCtx a) (h.ipad.toList.take (blockSize a))
  savedOuter : h.souter = feed (initCtx a) (h.opad.toList.take (blockSize a))
  /-- Until HMAC_FINAL the outer context is the saved one (R370, R371). -/
  outerUntouched : h.phase = .absorbing → h.outer = h.souter
  /-- The inner counter includes the BS bytes of ipad (R33). -/
  innerCount : blockSize a ≤ h.inner.count.toNat
  /-- IPAD and OPAD are zero past BS (R43). -/
  ipadTailZero : ∀ i : Fin 144, blockSize a ≤ i.val → h.ipad[i] = 0x00#8
  opadTailZero : ∀ i : Fin 144, blockSize a ≤ i.val → h.opad[i] = 0x00#8
  /-- IPAD and OPAD come from one K' (R361): they differ by 0x36 ^ 0x5c. -/
  padsAgree : ∀ i : Fin 144, i.val < blockSize a → h.ipad[i] ^^^ 0x36#8 = h.opad[i] ^^^ 0x5c#8

/-- The invariants of the HMAC unit. -/
structure HmacUnit.Inv (h : HmacUnit) : Prop where
  /-- R35 for the four context records. -/
  inner : h.inner.Inv
  outer : h.outer.Inv
  sinner : h.sinner.Inv
  souter : h.souter.Inv
  /-- As R35(a), for HM (R40, R370). -/
  algNoneIffEmpty : h.alg = none ↔ h.phase = .empty
  /-- As R34, for HM. -/
  emptyIsReset : h.phase = .empty → h = HmacUnit.reset
  live : ∀ a, h.alg = some a → LiveHmac a h

/-- The invariant of an instance: "Invariants that every command preserves" (R35), for CTX and HM. -/
structure State.Inv (s : State) : Prop where
  ctx : s.ctx.Inv
  hm : s.hm.Inv

end Sys2Proof.Machine
end

