-- ==== Sys2Proof/Certificates/Slice0/Obligations.lean ====
section
/-! DEFINITION. The statements for the provers, and the few definitions they are written with (namespace
Sys2Proof.Claims): numbers and reference functions written from the spec's rules apart from the model. -/

namespace Sys2Proof.Claims

open Sys2Proof.Machine

/-! ### Fields and numbers, written as arithmetic -/

/-- CW[7:0] as a number (R101). -/
def opc (t : Transaction) : Nat := t.cw.toNat % 256

/-- CW[11:8] as a number (R101). -/
def algNum (t : Transaction) : Nat := t.cw.toNat / 256 % 16

/-- CW[18:12] as a number (R101). -/
def outlenNum (t : Transaction) : Nat := t.cw.toNat / 4096 % 128

/-- CW[19] as a number (R101). -/
def fullNum (t : Transaction) : Nat := t.cw.toNat / 524288 % 2

/-- CW[31:20] as a number (R101). -/
def rsvNum (t : Transaction) : Nat := t.cw.toNat / 1048576

/-- The assigned opcodes (R412). -/
def assigned : List Nat := [0x01, 0x02, 0x03, 0x04, 0x11, 0x12, 0x13, 0x14]

/-- R103: ARG bytes for UPDATE, HMAC_INIT and HMAC_UPDATE, no byte for every other opcode. -/
def payloadAsRequired (t : Transaction) : Prop :=
  t.payload.length = if opc t ∈ [0x02, 0x11, 0x12] then t.arg.toNat else 0

/-- The five cases of R413. -/
def fieldsReserved (t : Transaction) : Prop :=
  rsvNum t ≠ 0 ∨
  (algNum t ≠ 0 ∧ opc t ∉ [0x01, 0x11]) ∨
  ((outlenNum t ≠ 0 ∨ fullNum t ≠ 0) ∧ opc t ∉ [0x03, 0x13]) ∨
  (t.arg.toNat ≠ 0 ∧ opc t ∈ [0x01, 0x03, 0x13, 0x14]) ∨
  (fullNum t = 1 ∧ outlenNum t ≠ 0)

/-- The mapped register numbers (R415). -/
def mappedReg (n : Nat) : Prop :=
  n = 0x00 ∨ n = 0x01 ∨ n = 0x02 ∨ (0x10 ≤ n ∧ n ≤ 0x28) ∨ (0x30 ≤ n ∧ n ≤ 0x41)

/-- The alg field as a number (R30, R104). -/
def algFieldNum (o : Option Alg) : Nat :=
  match o with
  | none => 0
  | some .sha224 => 1
  | some .sha256 => 2
  | some .sha384 => 3
  | some .sha512 => 4
  | some .sha3_224 => 5
  | some .sha3_256 => 6
  | some .sha3_384 => 7
  | some .sha3_512 => 8
  | some .ripemd160 => 9

/-- The phase field as a number (R30). -/
def phaseNum (p : Phase) : Nat :=
  match p with
  | .empty => 0
  | .absorbing => 1
  | .finalized => 2

/-- The content of a register as a number (R51 to R55). -/
def regNum (s : State) (r : Reg) : Nat :=
  match r with
  | .ctxInfo =>
    algFieldNum s.ctx.alg + 16 * phaseNum s.ctx.phase + 256 * s.ctx.buflen.toNat
      + 65536 * blockSizeOf s.ctx.alg + 16777216 * digestSizeOf s.ctx.alg
  | .ctxCount => s.ctx.count.toNat
  | .hmacInfo => algFieldNum s.hm.alg + 16 * phaseNum s.hm.phase
  | .ctxS i => s.ctx.store[i].toNat
  | .ctxBufw k =>
    ((List.range 8).map fun j =>
      (if 8 * k.val + j < s.ctx.buflen.toNat then (s.ctx.buf.toList.getD (8 * k.val + j) 0).toNat else 0)
        * 256 ^ j).sum

/-- The words of `IV(a)` as R321 and R190 to R193, R243, R287 list them. -/
def ivWords (a : Alg) : List Word64 :=
  match a with
  | .sha224 =>
    [0xc1059ed8, 0x367cd507, 0x3070dd17, 0xf70e5939, 0xffc00b31, 0x68581511, 0x64f98fa7, 0xbefa4fa4]
      ++ List.replicate 17 0
  | .sha256 =>
    [0x6a09e667, 0xbb67ae85, 0x3c6ef372, 0xa54ff53a, 0x510e527f, 0x9b05688c, 0x1f83d9ab, 0x5be0cd19]
      ++ List.replicate 17 0
  | .sha384 =>
    [0xcbbb9d5dc1059ed8, 0x629a292a367cd507, 0x9159015a3070dd17, 0x152fecd8f70e5939,
     0x67332667ffc00b31, 0x8eb44a8768581511, 0xdb0c2e0d64f98fa7, 0x47b5481dbefa4fa4]
      ++ List.replicate 17 0
  | .sha512 =>
    [0x6a09e667f3bcc908, 0xbb67ae8584caa73b, 0x3c6ef372fe94f82b, 0xa54ff53a5f1d36f1,
     0x510e527fade682d1, 0x9b05688c2b3e6c1f, 0x1f83d9abfb41bd6b, 0x5be0cd19137e2179]
      ++ List.replicate 17 0
  | .sha3_224 | .sha3_256 | .sha3_384 | .sha3_512 => List.replicate 25 0
  | .ripemd160 =>
    [0x67452301, 0xefcdab89, 0x98badcfe, 0x10325476, 0xc3d2e1f0] ++ List.replicate 20 0

/-! ### A whole-message hash, block by block -/

/-- The first n blocks of bs bytes of a byte string. -/
def blocks (bs n : Nat) (m : Bytes) : List Bytes :=
  match n with
  | 0 => []
  | n + 1 => m.take bs :: blocks bs n (m.drop bs)

/-- The store after the first n whole blocks of m were processed in order (R330). -/
def afterBlocks (a : Alg) (s : Vector Word64 25) (n : Nat) (m : Bytes) : Vector Word64 25 :=
  (blocks (blockSize a) n m).foldl (processStore (familyOf a)) s

/-- The bit length of n bytes in LF bytes, in the family's byte order (R334). -/
def lengthBytes (f : Family) (n : Nat) : Bytes :=
  match f with
  | .sha2_32 => (List.range 8).map fun i => BitVec.ofNat 8 (8 * n / 256 ^ (7 - i))
  | .sha2_64 => (List.range 16).map fun i => BitVec.ofNat 8 (8 * n / 256 ^ (15 - i))
  | .keccak => []
  | .rmd160 => (List.range 8).map fun i => BitVec.ofNat 8 (8 * n / 256 ^ i)

/-- The zero bytes between 0x80 and the length field when b bytes are buffered: the padding ends at the end of
this block if it fits (b ≤ BS − LF − 1), else at the end of the next (R333, R335). -/
def mdZeroCount (a : Alg) (b : Nat) : Nat :=
  let room := blockSize a - lengthFieldSize (familyOf a)
  if b + 1 ≤ room then room - (b + 1) else room + blockSize a - (b + 1)

/-- The padding of an n-byte message (R241, R333), for b = n mod BS buffered bytes. For the KECCAK family it is
the suffix byte, zeros and 0x80, or one merged byte where b = BS − 1. -/
def padding (k : KeccakSuffix) (a : Alg) (n b : Nat) : Bytes :=
  match familyOf a with
  | .sha2_32 => 0x80 :: (zeros (mdZeroCount a b) ++ lengthBytes .sha2_32 n)
  | .sha2_64 => 0x80 :: (zeros (mdZeroCount a b) ++ lengthBytes .sha2_64 n)
  | .keccak =>
    if b + 1 = blockSize a then [suffixByte k ^^^ 0x80]
    else suffixByte k :: (zeros (blockSize a - b - 2) ++ [0x80])
  | .rmd160 => 0x80 :: (zeros (mdZeroCount a b) ++ lengthBytes .rmd160 n)

/-- How many blocks the padding ends (R335): one or two for Merkle–Damgård families, one for KECCAK. -/
def padBlocks (a : Alg) (b : Nat) : Nat :=
  match familyOf a with
  | .keccak => 1
  | .sha2_32 | .sha2_64 | .rmd160 =>
    if b + lengthFieldSize (familyOf a) + 1 ≤ blockSize a then 1 else 2

/-- Byte i of the digest of a final store: the family's words in order, big-endian for SHA-2, little-endian for
Keccak and RIPEMD-160 (R194, R242, R288). -/
def digestByte (f : Family) (s : Vector Word64 25) (i : Nat) : Byte :=
  match f with
  | .sha2_32 => BitVec.ofNat 8 ((s.toList.getD (i / 4) 0).toNat / 256 ^ (3 - i % 4))
  | .sha2_64 => BitVec.ofNat 8 ((s.toList.getD (i / 8) 0).toNat / 256 ^ (7 - i % 8))
  | .keccak => BitVec.ofNat 8 ((s.toList.getD (i / 8) 0).toNat / 256 ^ (i % 8))
  | .rmd160 => BitVec.ofNat 8 ((s.toList.getD (i / 4) 0).toNat / 256 ^ (i % 4))

/-- The DS digest bytes of a final store. -/
def digestBytes (a : Alg) (s : Vector Word64 25) : Bytes :=
  (List.range (digestSize a)).map (digestByte (familyOf a) s)

/-- The hash of a whole message: pad it, process its blocks from the initial value, take the digest. No
context, no buffer, no streaming. -/
def wholeHash (k : KeccakSuffix) (a : Alg) (m : Bytes) : Bytes :=
  let padded := m ++ padding k a m.length (m.length % blockSize a)
  digestBytes a (afterBlocks a (ivStore a) (padded.length / blockSize a) padded)

/-- K' of R360 over `wholeHash`. -/
def wholeKey (k : KeccakSuffix) (a : Alg) (key : Bytes) : Bytes :=
  if key.length > blockSize a then wholeHash k a key ++ zeros (blockSize a - digestSize a)
  else key ++ zeros (blockSize a - key.length)

/-- The HMAC of a whole message over `wholeHash` (R374). -/
def wholeHmac (k : KeccakSuffix) (a : Alg) (key m : Bytes) : Bytes :=
  wholeHash k a (xorRep (wholeKey k a key) 0x5c#8 ++ wholeHash k a (xorRep (wholeKey k a key) 0x36#8 ++ m))

/-- A key that HMAC_INIT takes: short enough not to be hashed, or short enough to be hashed (R370). -/
def keyTaken (a : Alg) (key : Bytes) : Prop := key.length ≤ blockSize a ∨ key.length ≤ maxLen a

/-- The block that HMAC_FINAL gives the outer context: the inner digest, then the padding of a message of
BS + DS bytes of which DS are buffered (R363, R481). -/
def outerBlock (s : State) (a : Alg) : Bytes :=
  finalizeDigest s.keccakSuffix s.hm.inner
    ++ padding s.keccakSuffix a (blockSize a + digestSize a) (digestSize a)

/-! ### Answers -/

/-- The command answers with status st. -/
def answers (i : Instr) (s : State) (st : Status) : Prop :=
  ∃ t r, exec i s = .next t ∧ t.responses = s.responses ++ [r] ∧ r.status = st

/-- INIT, UPDATE, FINAL and RDREG. -/
def onContext (i : Instr) : Bool :=
  match i with
  | .init _ | .update _ | .final _ | .rdreg _ => true
  | .hmacInit _ _ | .hmacUpdate _ | .hmacFinal _ | .hmacReinit => false

/-- The commands that R79 calls idempotent or without side effect. -/
def repeatable (i : Instr) : Bool :=
  match i with
  | .init _ | .rdreg _ | .hmacInit _ _ | .hmacReinit => true
  | .update _ | .final _ | .hmacUpdate _ | .hmacFinal _ => false

/-- HMAC_INIT. -/
def loadsKey (i : Instr) : Bool :=
  match i with
  | .hmacInit _ _ => true
  | .init _ | .update _ | .final _ | .rdreg _ | .hmacUpdate _ | .hmacFinal _ | .hmacReinit => false

/-! ### Primes and roots (R195) -/

/-- The primes below 410, by trial division: the first 80 primes. -/
def primes : List Nat :=
  (List.range 410).filter fun n => decide (2 ≤ n) && (List.range n).all fun d => decide (d < 2) || n % d != 0

/-- `k = floor(frac(p^{1/3}) · 2^w)`: with q the whole part of the root, q·2^w + k is the whole part of the
root times 2^w. -/
def isCubeRootFraction (w p k : Nat) : Prop :=
  k < 2 ^ w ∧ ∃ q < 8, (q * 2 ^ w + k) ^ 3 ≤ p * 2 ^ (3 * w) ∧ p * 2 ^ (3 * w) < (q * 2 ^ w + k + 1) ^ 3

/-- `k = floor(frac(p^{1/2}) · 2^w)`. -/
def isSquareRootFraction (w p k : Nat) : Prop :=
  k < 2 ^ w ∧ ∃ q < 8, (q * 2 ^ w + k) ^ 2 ≤ p * 2 ^ (2 * w) ∧ p * 2 ^ (2 * w) < (q * 2 ^ w + k + 1) ^ 2

/-- Round r of a 16-per-round table (R281). -/
def tableRow (l : List Nat) (r : Nat) : List Nat := (l.drop (16 * r)).take 16

/-- The parity of column x mod 5 (R231). -/
def columnParity (s : Lanes) (x : Nat) : Word64 :=
  laneAt s x 0 ^^^ laneAt s x 1 ^^^ laneAt s x 2 ^^^ laneAt s x 3 ^^^ laneAt s x 4

/-! ### Generation of the Keccak tables (R233, R237) -/

/-- The lanes that the walk of R233 visits from (x, y) on, with t counting up. -/
def rhoWalk (n t x y : Nat) : List (Nat × Nat × Nat) :=
  match n with
  | 0 => []
  | n + 1 => (x, y, (t + 1) * (t + 2) / 2 % 64) :: rhoWalk n (t + 1) y ((2 * x + 3 * y) % 5)

/-- The LFSR register of R237 after n turns from 0x01. -/
def lfsr (n : Nat) : Nat :=
  match n with
  | 0 => 0x01
  | n + 1 =>
    let r := lfsr n * 2
    if r / 256 % 2 = 1 then r ^^^ 0x171 else r

/-- `rc(t)` (R237). -/
def rcBit (t : Nat) : Bool := decide (lfsr (t % 255) % 2 = 1)

end Sys2Proof.Claims

open Sys2Proof Sys2Proof.Machine Sys2Proof.Claims

/-! ### Encoding -/

/-- Every well-formed command is read back from its own encoding, with every operand. -/
def Obligations.DecodeReadsBackEncode : Prop :=
  ∀ i : Instr, i.wf = true → decode (encode i) = .ok i

/-- A transaction that decodes to a command is that command's encoding: no two transactions are one command,
and no reserved bit is ignored. -/
def Obligations.EncodeReadsBackDecode : Prop :=
  ∀ (t : Transaction) (i : Instr), decode t = .ok i → encode i = t ∧ i.wf = true

/-- Command words the spec writes out (R113, and the programs P1 to P4 of 95_test_vectors.md). -/
def Obligations.SpecCommandWordsDecode : Prop :=
  decode ⟨0x00000201#32, 0, []⟩ = .ok (.init .sha256) ∧
  decode ⟨0x00000002#32, 3, [0x61, 0x62, 0x63]⟩ = .ok (.update [0x61, 0x62, 0x63]) ∧
  decode ⟨0x00080003#32, 0, []⟩ = .ok (.final .full) ∧
  decode ⟨0x00010003#32, 0, []⟩ = .ok (.final (.bytes 16)) ∧
  decode ⟨0x00000004#32, 0x41, []⟩ = .ok (.rdreg (.ctxBufw 17)) ∧
  decode ⟨0x00000411#32, 4, [0x4a, 0x65, 0x66, 0x65]⟩ = .ok (.hmacInit .sha512 [0x4a, 0x65, 0x66, 0x65]) ∧
  decode ⟨0x00000012#32, 1, [0x61]⟩ = .ok (.hmacUpdate [0x61]) ∧
  decode ⟨0x00010013#32, 0, []⟩ = .ok (.hmacFinal (.bytes 16)) ∧
  decode ⟨0x00000014#32, 0, []⟩ = .ok .hmacReinit

/-- R412: EOPC exactly for the unassigned opcodes. -/
def Obligations.EopcExactlyForUnassignedOpcodes : Prop :=
  ∀ t : Transaction, payloadAsRequired t → (decode t = .error (.status .eopc) ↔ opc t ∉ assigned)

/-- R413: ERSV exactly when one of its five cases holds, for an assigned opcode (R411). -/
def Obligations.ErsvExactlyForReservedFields : Prop :=
  ∀ t : Transaction, payloadAsRequired t →
    (decode t = .error (.status .ersv) ↔ opc t ∈ assigned ∧ fieldsReserved t)

/-- R414: EALG exactly for INIT and HMAC_INIT with a reserved algorithm code, the fields being in order
(R411). -/
def Obligations.EalgExactlyForReservedCodes : Prop :=
  ∀ t : Transaction, payloadAsRequired t →
    (decode t = .error (.status .ealg) ↔
      opc t ∈ [0x01, 0x11] ∧ ¬ fieldsReserved t ∧ algNum t ∉ [1, 2, 3, 4, 5, 6, 7, 8, 9])

/-- R415: EREG exactly for RDREG with an unmapped number, the fields being in order (R411). -/
def Obligations.EregExactlyForUnmappedNumbers : Prop :=
  ∀ t : Transaction, payloadAsRequired t →
    (decode t = .error (.status .ereg) ↔ opc t = 0x04 ∧ ¬ fieldsReserved t ∧ ¬ mappedReg t.arg.toNat)

/-! ### The step -/

/-- When the next input is a transaction that decodes to a command, the step is the command's meaning at the
state with that input taken off the channel. -/
def Obligations.StepRunsTheDecodedCommand : Prop :=
  ∀ (s : State) (t : Transaction) (rest : List Input) (i : Instr),
    s.inputs = .command t :: rest → decode t = .ok i → step s = exec i { s with inputs := rest }

/-- When a decode check fails, the step answers (status, 0, empty) and changes no architectural state. -/
def Obligations.StepAnswersADecodeError : Prop :=
  ∀ (s : State) (t : Transaction) (rest : List Input) (st : Status),
    s.inputs = .command t :: rest → decode t = .error (.status st) →
    step s = .next { s with inputs := rest, responses := s.responses ++ [⟨st, 0#64, []⟩] }

/-- R472: the step never faults, and it is refused exactly on a transaction whose payload breaks R103. -/
def Obligations.StepStopsOnlyOnPayloadMismatch : Prop :=
  ∀ s : State,
    (∀ f, step s ≠ .fault f) ∧
    (∀ r, step s = .refused r ↔
      r = .payloadLength ∧ ∃ t rest, s.inputs = .command t :: rest ∧ ¬ payloadAsRequired t)

/-- R431: with no input the instance holds its state. -/
def Obligations.IdleStepHoldsTheState : Prop :=
  ∀ s : State, s.inputs = [] → step s = .next s

/-- R460, R424: reset, in the middle of a command or not, gives the reset state of R60, answers nothing and
leaves KECCAK_SUFFIX. -/
def Obligations.ResetGivesTheResetState : Prop :=
  ∀ (s : State) (p : Option Transaction) (rest : List Input), s.inputs = .reset p :: rest →
    step s = .next ⟨State.reset.ctx, State.reset.hm, s.keccakSuffix, rest, s.responses⟩

/-- R60: the value of every state element after reset. -/
def Obligations.ResetValues : Prop :=
  (∀ c ∈ [State.reset.ctx, State.reset.hm.inner, State.reset.hm.outer, State.reset.hm.sinner,
      State.reset.hm.souter],
    c.alg = none ∧ c.phase = .empty ∧ (∀ i : Fin 25, c.store[i] = 0) ∧ (∀ i : Fin 144, c.buf[i] = 0) ∧
      c.buflen = 0 ∧ c.count = 0) ∧
  State.reset.hm.alg = none ∧ State.reset.hm.phase = .empty ∧
  (∀ i : Fin 144, State.reset.hm.ipad[i] = 0) ∧ (∀ i : Fin 144, State.reset.hm.opad[i] = 0)

/-- An instruction word of the opcode table, placed as the next command, is the next thing the step runs. -/
def Obligations.StepRunsAPlacedTableWord : Prop :=
  ∀ (s : State) (nbits w : Nat) (i : Instr), decodeTableWord nbits w = some i →
    step (s.withFetchWord nbits w) = exec i s

/-! ### The context commands -/

/-- R340, R320: INIT, in every phase, answers OK and writes every field of CTX; nothing else changes. -/
def Obligations.InitStartsAFreshContext : Prop :=
  ∀ (s : State) (a : Alg),
    exec (.init a) s = .next
      { s with
        ctx := ⟨some a, .absorbing, ivStore a, Vector.replicate 144 0x00#8, 0#8, 0#64⟩
        responses := s.responses ++ [⟨.ok, 0#64, []⟩] }

/-- R321: the words INIT puts into the store, for every algorithm. -/
def Obligations.InitLoadsTheInitialValue : Prop :=
  ∀ (s : State) (a : Alg), ∃ t, exec (.init a) s = .next t ∧ t.ctx.store.toList = ivWords a

/-- R341, R338: UPDATE in phase ABSORBING, within MAXLEN: Absorb, then the counter, which does not wrap.
Everything else is unchanged. -/
def Obligations.UpdateAbsorbsAndCounts : Prop :=
  ∀ (s : State) (a : Alg) (m : Bytes), s.ctx.alg = some a → s.ctx.phase = .absorbing →
    s.ctx.count.toNat + m.length ≤ maxLen a →
    ∃ n : Word64, n.toNat = s.ctx.count.toNat + m.length ∧
      exec (.update m) s = .next
        { s with
          ctx := { absorb s.ctx m with count := n }
          responses := s.responses ++ [⟨.ok, 0#64, []⟩] }

/-- R331: whatever the bytes and however the buffer stands, Absorb processes the whole blocks of (buffered
bytes, then m) in order and keeps the rest in the buffer; algorithm, phase and counter stay. -/
def Obligations.AbsorbIsBlockwise : Prop :=
  ∀ (c : Context) (a : Alg) (m : Bytes), c.alg = some a → c.buflen.toNat < blockSize a →
    let all := bufBytes c c.buflen.toNat ++ m
    let n := (c.buflen.toNat + m.length) / blockSize a
    (absorb c m).store = afterBlocks a c.store n all ∧
    (absorb c m).buflen.toNat = (c.buflen.toNat + m.length) % blockSize a ∧
    bufBytes (absorb c m) (absorb c m).buflen.toNat = all.drop (n * blockSize a) ∧
    (absorb c m).alg = c.alg ∧ (absorb c m).phase = c.phase ∧ (absorb c m).count = c.count

/-- R345: any split of a message into consecutive chunks leaves the same state as one UPDATE: S, buflen, count,
phase and buf[0..buflen) of CTX, the algorithm, and all of HM; so the digest is the same. -/
def Obligations.ChunkingInvariance : Prop :=
  ∀ (s : State) (a : Alg) (chunks : List Bytes), s.ctx.alg = some a → s.ctx.phase = .absorbing →
    s.ctx.count.toNat + chunks.flatten.length ≤ maxLen a →
    ∃ t u, runCommands (chunks.map .update) s = .next t ∧ exec (.update chunks.flatten) s = .next u ∧
      t.ctx.alg = u.ctx.alg ∧ t.ctx.phase = u.ctx.phase ∧ t.ctx.store = u.ctx.store ∧
      t.ctx.buflen = u.ctx.buflen ∧ t.ctx.count = u.ctx.count ∧
      bufBytes t.ctx t.ctx.buflen.toNat = bufBytes u.ctx u.ctx.buflen.toNat ∧
      finalizeDigest t.keccakSuffix t.ctx = finalizeDigest u.keccakSuffix u.ctx ∧
      t.hm = u.hm ∧ t.inputs = u.inputs ∧
      t.responses = s.responses ++ List.replicate chunks.length ⟨.ok, 0#64, []⟩

/-- R342, R337: FINAL in phase ABSORBING with L ≤ DS returns the leading L bytes of the digest and leaves the
finalized context; nothing else changes. -/
def Obligations.FinalReturnsTheDigest : Prop :=
  ∀ (s : State) (a : Alg) (l : OutLen), s.ctx.alg = some a → s.ctx.phase = .absorbing →
    outputLength (some a) l ≤ digestSize a →
    exec (.final l) s = .next
      { s with
        ctx := finalizeCtx s.keccakSuffix s.ctx
        responses := s.responses ++
          [⟨.ok, 0#64, (finalizeDigest s.keccakSuffix s.ctx).take
            (match l with | .full => digestSize a | .bytes n => n.toNat)⟩] }

/-- R332: after Finalize the phase is FINALIZED, buflen is 0, algorithm and counter are unchanged, and the
digest is exactly DS bytes: the words of the final store, serialised byte by byte in the family's order (R194,
R242, R288, R336). -/
def Obligations.FinalizeLeavesTheContext : Prop :=
  ∀ (k : KeccakSuffix) (c : Context) (a : Alg), c.alg = some a → c.buflen.toNat < blockSize a →
    (finalizeCtx k c).phase = .finalized ∧ (finalizeCtx k c).buflen = 0#8 ∧
    (finalizeCtx k c).count = c.count ∧ (finalizeCtx k c).alg = some a ∧
    (finalizeDigest k c).length = digestSize a ∧
    finalizeDigest k c = digestBytes a (finalizeCtx k c).store

/-- R333, R335, R241: Finalize processes the buffered bytes and the padding as one block, or two where a
Merkle–Damgård padding does not fit. -/
def Obligations.FinalizeProcessesThePadding : Prop :=
  ∀ (k : KeccakSuffix) (c : Context) (a : Alg), c.alg = some a → c.buflen.toNat < blockSize a →
    let padded := bufBytes c c.buflen.toNat ++ padding k a c.count.toNat c.buflen.toNat
    padded.length = padBlocks a c.buflen.toNat * blockSize a ∧
    (finalizeCtx k c).store = afterBlocks a c.store (padBlocks a c.buflen.toNat) padded

/-- R334: within MAXLEN the length field is the exact bit length, in LF bytes, big-endian for SHA-2 and
little-endian for RIPEMD-160. -/
def Obligations.LengthFieldIsExact : Prop :=
  ∀ (a : Alg) (count : Word64), count.toNat ≤ maxLen a →
    (lenField (familyOf a) count).length = lengthFieldSize (familyOf a) ∧
    (match familyOf a with
      | .sha2_32 | .sha2_64 => beNat (lenField (familyOf a) count) = 8 * count.toNat
      | .rmd160 => leNat (lenField (familyOf a) count) = 8 * count.toNat
      | .keccak => lenField (familyOf a) count = [])

/-- R343, R50 to R55: RDREG answers the register's content and changes nothing. -/
def Obligations.RdregReadsTheRegisterView : Prop :=
  ∀ (s : State) (r : Reg), ∃ v : Word64, v.toNat = regNum s r ∧
    exec (.rdreg r) s = .next { s with responses := s.responses ++ [⟨.ok, v, []⟩] }

/-- R344: HASH, sent over the channel, answers the whole-message hash, from every idle state. -/
def Obligations.OneShotHashIsTheWholeMessageHash : Prop :=
  ∀ (s : State) (a : Alg) (m : Bytes), s.inputs = [] → m.length ≤ maxLen a →
    ∃ t, Host.Core.run Sys2Proof.core 3 (send (pseudoHash a m) s) = .next t ∧
      t.responses = s.responses ++
        [⟨.ok, 0#64, []⟩, ⟨.ok, 0#64, []⟩, ⟨.ok, 0#64, wholeHash s.keccakSuffix a m⟩] ∧
      t.hm = s.hm

/-! ### The HMAC commands -/

/-- R360, R377: the normalised key is BS bytes; up to BS bytes a key is zero-padded, and only a longer one is
hashed first. -/
def Obligations.KeyNormalisation : Prop :=
  ∀ (k : KeccakSuffix) (a : Alg) (key : Bytes),
    (keyNorm k a key).length = blockSize a ∧
    (key.length ≤ blockSize a → keyNorm k a key = key ++ zeros (blockSize a - key.length)) ∧
    (blockSize a < key.length →
      keyNorm k a key = hashFn k a key ++ zeros (blockSize a - digestSize a))

/-- R370, R361, R43: HMAC_INIT, in every phase, loads pads, live and saved contexts; nothing else changes. -/
def Obligations.HmacInitLoadsTheKey : Prop :=
  ∀ (s : State) (a : Alg) (key : Bytes), keyTaken a key →
    ∃ t, exec (.hmacInit a key) s = .next t ∧
      t.ctx = s.ctx ∧ t.keccakSuffix = s.keccakSuffix ∧ t.inputs = s.inputs ∧
      t.responses = s.responses ++ [⟨.ok, 0#64, []⟩] ∧
      t.hm.alg = some a ∧ t.hm.phase = .absorbing ∧
      (∀ i : Fin 144, t.hm.ipad[i] =
        if i.val < blockSize a then (keyNorm s.keccakSuffix a key).getD i.val 0x00#8 ^^^ 0x36#8 else 0x00#8) ∧
      (∀ i : Fin 144, t.hm.opad[i] =
        if i.val < blockSize a then (keyNorm s.keccakSuffix a key).getD i.val 0x00#8 ^^^ 0x5c#8 else 0x00#8) ∧
      t.hm.inner = feed (initCtx a) (xorRep (keyNorm s.keccakSuffix a key) 0x36#8) ∧
      t.hm.outer = feed (initCtx a) (xorRep (keyNorm s.keccakSuffix a key) 0x5c#8) ∧
      t.hm.sinner = t.hm.inner ∧ t.hm.souter = t.hm.outer

/-- R370: after HMAC_INIT exactly one block was processed into each live context. -/
def Obligations.HmacInitProcessesOneBlockEach : Prop :=
  ∀ (s : State) (a : Alg) (key : Bytes), keyTaken a key →
    ∃ t, exec (.hmacInit a key) s = .next t ∧
      t.hm.inner.count.toNat = blockSize a ∧ t.hm.outer.count.toNat = blockSize a ∧
      t.hm.inner.buflen = 0#8 ∧ t.hm.outer.buflen = 0#8 ∧
      t.hm.inner.store =
        processStore (familyOf a) (ivStore a) (xorRep (keyNorm s.keccakSuffix a key) 0x36#8) ∧
      t.hm.outer.store =
        processStore (familyOf a) (ivStore a) (xorRep (keyNorm s.keccakSuffix a key) 0x5c#8)

/-- R371: HMAC_UPDATE in phase ABSORBING, within MAXLEN, feeds the inner context only. -/
def Obligations.HmacUpdateFeedsTheInnerContext : Prop :=
  ∀ (s : State) (a : Alg) (m : Bytes), s.hm.alg = some a → s.hm.phase = .absorbing →
    s.hm.inner.count.toNat + m.length ≤ maxLen a →
    ∃ n : Word64, n.toNat = s.hm.inner.count.toNat + m.length ∧
      exec (.hmacUpdate m) s = .next
        { s with
          hm := { s.hm with inner := { absorb s.hm.inner m with count := n } }
          responses := s.responses ++ [⟨.ok, 0#64, []⟩] }

/-- R372, R363: HMAC_FINAL in phase ABSORBING with L ≤ DS finalizes the inner context, feeds its whole digest
to the outer one, finalizes that, and returns the leading L bytes; nothing else changes. -/
def Obligations.HmacFinalReturnsTheMac : Prop :=
  ∀ (s : State) (a : Alg) (l : OutLen), s.hm.alg = some a → s.hm.phase = .absorbing →
    outputLength (some a) l ≤ digestSize a →
    exec (.hmacFinal l) s = .next
      { s with
        hm := { s.hm with
          inner := finalizeCtx s.keccakSuffix s.hm.inner
          outer := finalizeCtx s.keccakSuffix
            (feed s.hm.outer (finalizeDigest s.keccakSuffix s.hm.inner))
          phase := .finalized }
        responses := s.responses ++
          [⟨.ok, 0#64, (finalizeDigest s.keccakSuffix
              (feed s.hm.outer (finalizeDigest s.keccakSuffix s.hm.inner))).take
            (match l with | .full => digestSize a | .bytes n => n.toNat)⟩] }

/-- R481: with the invariants of the HMAC unit, HMAC_FINAL processes exactly one block into the outer context:
the inner digest with its padding. -/
def Obligations.HmacFinalProcessesOneOuterBlock : Prop :=
  ∀ (s : State) (a : Alg) (l : OutLen), s.Inv → s.hm.alg = some a → s.hm.phase = .absorbing →
    outputLength (some a) l ≤ digestSize a →
    (outerBlock s a).length = blockSize a ∧
    ∃ t, exec (.hmacFinal l) s = .next t ∧
      t.hm.outer.store = processStore (familyOf a) s.hm.souter.store (outerBlock s a)

/-- R373: HMAC_REINIT in ABSORBING and FINALIZED restores the live contexts from the saved ones; nothing else
changes. -/
def Obligations.HmacReinitRestoresTheBaseline : Prop :=
  ∀ s : State, s.hm.phase ≠ .empty →
    exec .hmacReinit s = .next
      { s with
        hm := { s.hm with inner := s.hm.sinner, outer := s.hm.souter, phase := .absorbing }
        responses := s.responses ++ [⟨.ok, 0#64, []⟩] }

/-- R374: HMAC_INIT, HMAC_UPDATE, HMAC_FINAL answer HMAC over the whole-message hash, from every state. -/
def Obligations.HmacIsTheNestedHash : Prop :=
  ∀ (s : State) (a : Alg) (key m : Bytes), keyTaken a key → blockSize a + m.length ≤ maxLen a →
    ∃ t, runCommands (pseudoHmac a key m .full) s = .next t ∧
      t.responses = s.responses ++
        [⟨.ok, 0#64, []⟩, ⟨.ok, 0#64, []⟩, ⟨.ok, 0#64, wholeHmac s.keccakSuffix a key m⟩]

/-- R375: whatever commands but HMAC_INIT come between the key and a reinit, the MAC after the reinit is the
MAC of a run without them. -/
def Obligations.ReinitEquivalence : Prop :=
  ∀ (s : State) (a : Alg) (key m : Bytes) (l : OutLen) (between : List Instr), keyTaken a key →
    blockSize a + m.length ≤ maxLen a → (∀ i ∈ between, loadsKey i = false) →
    ∃ t u r,
      runCommands [.hmacInit a key, .hmacUpdate m, .hmacFinal l] s = .next t ∧
      runCommands (.hmacInit a key :: (between ++ [.hmacReinit, .hmacUpdate m, .hmacFinal l])) s = .next u ∧
      t.responses.getLast? = some r ∧ u.responses.getLast? = some r ∧
      (outputLength (some a) l ≤ digestSize a → r.status = .ok)

/-- R376, R337: from one state, FINAL L and HMAC_FINAL L return the leading L bytes of what FULL returns, and
leave the same state but for the response. -/
def Obligations.TruncationTakesTheLeadingBytes : Prop :=
  ∀ (s : State) (a : Alg) (n : BitVec 7), n.toNat ≤ digestSize a →
    (s.ctx.alg = some a → s.ctx.phase = .absorbing →
      ∃ t u out, exec (.final .full) s = .next t ∧ exec (.final (.bytes n)) s = .next u ∧
        t.responses = s.responses ++ [⟨.ok, 0#64, out⟩] ∧
        u.responses = s.responses ++ [⟨.ok, 0#64, out.take n.toNat⟩] ∧ t.ctx = u.ctx ∧ t.hm = u.hm) ∧
    (s.hm.alg = some a → s.hm.phase = .absorbing →
      ∃ t u out, exec (.hmacFinal .full) s = .next t ∧ exec (.hmacFinal (.bytes n)) s = .next u ∧
        t.responses = s.responses ++ [⟨.ok, 0#64, out⟩] ∧
        u.responses = s.responses ++ [⟨.ok, 0#64, out.take n.toNat⟩] ∧ t.ctx = u.ctx ∧ t.hm = u.hm)

/-- R79: INIT, HMAC_INIT, HMAC_REINIT and RDREG, repeated, leave the same state and answer the same; a second FINAL
or HMAC_FINAL answers ESTATE; two UPDATEs or HMAC_UPDATEs of m absorb m twice. -/
def Obligations.RepeatedCommands : Prop :=
  (∀ (i : Instr) (s t : State), repeatable i = true → exec i s = .next t →
    ∃ u, exec i t = .next u ∧ u.ctx = t.ctx ∧ u.hm = t.hm ∧
      u.responses.getLast? = t.responses.getLast?) ∧
  (∀ (s t : State) (l l' : OutLen), s.ctx.phase = .absorbing → exec (.final l) s = .next t →
    t.ctx.phase = .finalized → answers (.final l') t .estate) ∧
  (∀ (s t : State) (l l' : OutLen), s.hm.phase = .absorbing → exec (.hmacFinal l) s = .next t →
    t.hm.phase = .finalized → answers (.hmacFinal l') t .estate) ∧
  (∀ (s : State) (a : Alg) (m : Bytes), s.ctx.alg = some a → s.ctx.phase = .absorbing →
    s.ctx.count.toNat + (m ++ m).length ≤ maxLen a →
    ∃ t u, runCommands [.update m, .update m] s = .next t ∧ exec (.update (m ++ m)) s = .next u ∧
      t.ctx = u.ctx) ∧
  (∀ (s : State) (a : Alg) (m : Bytes), s.hm.alg = some a → s.hm.phase = .absorbing →
    s.hm.inner.count.toNat + (m ++ m).length ≤ maxLen a →
    ∃ t u, runCommands [.hmacUpdate m, .hmacUpdate m] s = .next t ∧
      exec (.hmacUpdate (m ++ m)) s = .next u ∧ t.hm = u.hm)

/-! ### Errors -/

/-- R418: which commands answer ESTATE, exactly. -/
def Obligations.EstateExactlyByPhase : Prop :=
  ∀ (i : Instr) (s : State), answers i s .estate ↔
    match i with
    | .init _ => False
    | .update _ => s.ctx.phase ≠ .absorbing
    | .final _ => s.ctx.phase ≠ .absorbing
    | .rdreg _ => False
    | .hmacInit _ _ => False
    | .hmacUpdate _ => s.hm.phase ≠ .absorbing
    | .hmacFinal _ => s.hm.phase ≠ .absorbing
    | .hmacReinit => s.hm.phase = .empty

/-- R419: which commands answer ELEN, exactly; ESTATE comes before it (R411). By the invariant (R35(a)) a
context that absorbs has an algorithm, so DS is one of R8's. -/
def Obligations.ElenExactlyForLongOutputs : Prop :=
  ∀ (i : Instr) (s : State), s.Inv → (answers i s .elen ↔
    match i with
    | .init _ => False
    | .update _ => False
    | .final .full => False
    | .final (.bytes n) => s.ctx.phase = .absorbing ∧ digestSizeOf s.ctx.alg < n.toNat
    | .rdreg _ => False
    | .hmacInit _ _ => False
    | .hmacUpdate _ => False
    | .hmacFinal .full => False
    | .hmacFinal (.bytes n) => s.hm.phase = .absorbing ∧ digestSizeOf s.hm.alg < n.toNat
    | .hmacReinit => False)

/-- R420: which commands answer EOVF, exactly; ESTATE comes before it (R411). By the invariant (R35(a)) a
context that absorbs has an algorithm, so MAXLEN is one of R11's. -/
def Obligations.EovfExactlyPastMaxlen : Prop :=
  ∀ (i : Instr) (s : State), s.Inv → (answers i s .eovf ↔
    match i with
    | .init _ => False
    | .update m => s.ctx.phase = .absorbing ∧ maxLenOf s.ctx.alg < s.ctx.count.toNat + m.length
    | .final _ => False
    | .rdreg _ => False
    | .hmacInit a key => blockSize a < key.length ∧ maxLen a < key.length
    | .hmacUpdate m => s.hm.phase = .absorbing ∧ maxLenOf s.hm.alg < s.hm.inner.count.toNat + m.length
    | .hmacFinal _ => False
    | .hmacReinit => False)

/-- R416: whenever a step answers an error, by a decode check or by the command's own checks, the architectural
state is as before, the command and its payload are consumed, and the response is (status, 0, empty). -/
def Obligations.ErrorsChangeNothing : Prop :=
  ∀ (s t : State) (tr : Transaction) (rest : List Input) (r : Response),
    s.inputs = .command tr :: rest → step s = .next t → t.responses = s.responses ++ [r] → r.status ≠ .ok →
    t = { s with inputs := rest, responses := s.responses ++ [⟨r.status, 0#64, []⟩] }

/-- R100, R107: every command answers exactly one response, in every state; the value is 0 but for RDREG, the
output is empty but for FINAL and HMAC_FINAL; what the host has yet to send is untouched. -/
def Obligations.EveryCommandAnswersOnce : Prop :=
  ∀ (i : Instr) (s : State), ∃ t r, exec i s = .next t ∧ t.responses = s.responses ++ [r] ∧
    t.inputs = s.inputs ∧
    (r.value ≠ 0 → ∃ reg, i = .rdreg reg) ∧
    (r.out ≠ [] → ∃ l, i = .final l ∨ i = .hmacFinal l)

/-- R410: the status codes, each its own, none above 0x07. -/
def Obligations.StatusCodeTable : Prop :=
  [Status.ok, .eopc, .ersv, .ealg, .estate, .elen, .ereg, .eovf].map (fun st => (statusCode st).toNat)
    = [0, 1, 2, 3, 4, 5, 6, 7] ∧
  ∀ st : Status, (statusCode st).toNat < 8

/-! ### Rules about the whole machine -/

/-- R44: the context commands leave HM, the HMAC commands leave CTX, and neither depends on the other: only
RDREG's answer reads both. -/
def Obligations.ContextAndHmacShareNothing : Prop :=
  ∀ (i : Instr) (s t : State), exec i s = .next t →
    (if onContext i then t.hm = s.hm else t.ctx = s.ctx) ∧
    (∀ h : HmacUnit, onContext i = true →
      ∃ u, exec i { s with hm := h } = .next u ∧ u.ctx = t.ctx ∧ u.hm = h ∧
        ((∀ reg, i ≠ .rdreg reg) → u.responses = t.responses)) ∧
    (∀ c : Context, onContext i = false →
      ∃ u, exec i { s with ctx := c } = .next u ∧ u.hm = t.hm ∧ u.ctx = c ∧ u.responses = t.responses)

/-- R41, R43, R462: the saved contexts and the pads are written only by HMAC_INIT and by reset. -/
def Obligations.SavedContextsWrittenOnlyByHmacInit : Prop :=
  ∀ s t : State, step s = .next t →
    (t.hm.sinner = s.hm.sinner ∧ t.hm.souter = s.hm.souter ∧ t.hm.ipad = s.hm.ipad ∧
      t.hm.opad = s.hm.opad) ∨
    (∃ p rest, s.inputs = .reset p :: rest) ∨
    (∃ tr rest a key, s.inputs = .command tr :: rest ∧ decode tr = .ok (.hmacInit a key))

/-- R61: only reset puts CTX.phase or HM.phase into EMPTY. -/
def Obligations.OnlyResetReturnsToEmpty : Prop :=
  ∀ s t : State, step s = .next t →
    (s.ctx.phase ≠ .empty ∧ t.ctx.phase = .empty ∨ s.hm.phase ≠ .empty ∧ t.hm.phase = .empty) →
    ∃ p rest, s.inputs = .reset p :: rest

/-- R9, R464: no command and no reset changes KECCAK_SUFFIX. -/
def Obligations.NoStepChangesTheSuffix : Prop :=
  ∀ s t : State, step s = .next t → t.keccakSuffix = s.keccakSuffix

/-- R43: what the context commands and RDREG answer depends on HM only through HM.alg and HM.phase, so a host
that issues them learns nothing of the key, whatever sequence it issues. -/
def Obligations.RegisterViewHidesKeyMaterial : Prop :=
  ∀ (is : List Instr) (s1 s2 : State), (∀ i ∈ is, onContext i = true) →
    s1.ctx = s2.ctx → s1.keccakSuffix = s2.keccakSuffix → s1.hm.alg = s2.hm.alg →
    s1.hm.phase = s2.hm.phase →
    ∃ t1 t2 answered, runCommands is s1 = .next t1 ∧ runCommands is s2 = .next t2 ∧
      t1.responses = s1.responses ++ answered ∧ t2.responses = s2.responses ++ answered ∧
      t1.ctx = t2.ctx

/-- R39, R422: no step reads an earlier response: errors are not sticky and no later command sees them. -/
def Obligations.ResponsesAreNeverRead : Prop :=
  ∀ (s t : State) (earlier : List Response), step s = .next t →
    ∃ answered, t.responses = s.responses ++ answered ∧
      step { s with responses := earlier } = .next { t with responses := earlier ++ answered }

/-- R10, R83, R429: a step of one instance leaves every other instance as it is, depends on that instance
alone, and steps of two instances commute. -/
def Obligations.InstancesAreIndependent : Prop :=
  ∀ (nInst : Nat) (d : Device nInst) (i : Fin nInst),
    (∀ e, deviceStep d i = .next e →
      step d[i] = .next e[i] ∧ ∀ j : Fin nInst, j ≠ i → e[j] = d[j]) ∧
    (∀ s, step d[i] = .next s → deviceStep d i = .next (d.set i s)) ∧
    (∀ (j : Fin nInst) (e f : Device nInst), j ≠ i → deviceStep d i = .next e → deviceStep e j = .next f →
      ∃ g, deviceStep d j = .next g ∧ deviceStep g i = .next f)

/-- R35 at reset. -/
def Obligations.InvariantHoldsAtReset : Prop := State.reset.Inv

/-- R35: every step, from every state that meets the invariants, gives a state that meets them: R35(a) to (f)
for CTX and the four HMAC contexts, and R34, R41 to R43, R361 for HM. -/
def Obligations.EveryStepKeepsTheInvariant : Prop :=
  ∀ s t : State, s.Inv → step s = .next t → t.Inv

/-! ### The engines -/

/-- R140, R141: rotations move bits around, for every width and count. -/
def Obligations.RotationsMoveBits : Prop :=
  ∀ (w : Nat) (x : BitVec w) (n i : Nat), i < w →
    (rotr x n).getLsbD i = x.getLsbD ((i + n) % w) ∧
    (rotl x n).getLsbD ((i + n) % w) = x.getLsbD i

/-- R150: reading back what was written, in both byte orders; rotations undo each other and go through XOR. -/
def Obligations.PrimitiveLaws : Prop :=
  (∀ x : Word32, beWord 32 (beBytes x) = x ∧ leWord 32 (leBytes x) = x) ∧
  (∀ x : Word64, beWord 64 (beBytes x) = x ∧ leWord 64 (leBytes x) = x) ∧
  (∀ (x : Word32) (n : Nat), rotr (rotl x n) n = x) ∧
  (∀ (x : Word64) (n : Nat), rotr (rotl x n) n = x) ∧
  (∀ (x y : Word32) (n : Nat), rotr x n ^^^ rotr y n = rotr (x ^^^ y) n) ∧
  (∀ (x y : Word64) (n : Nat), rotr x n ^^^ rotr y n = rotr (x ^^^ y) n)

/-- R172, R173: bit by bit, Ch chooses and Maj takes the majority. -/
def Obligations.ChooseAndMajorityBitwise : Prop :=
  ∀ (w : Nat) (x y z : BitVec w) (i : Nat), i < w →
    (ch x y z).getLsbD i = (if x.getLsbD i then y.getLsbD i else z.getLsbD i) ∧
    ((maj x y z).getLsbD i = true ↔
      2 ≤ (x.getLsbD i).toNat + (y.getLsbD i).toNat + (z.getLsbD i).toNat)

/-- R184, R185: the message schedules, word by word. -/
def Obligations.ScheduleRecurrences : Prop :=
  (∀ blk : Bytes,
    let ws := schedule variant256 blk
    ws.length = 64 ∧
    (∀ t < 16, ws.getD t 0 = beWord 32 (slice blk (4 * t) 4)) ∧
    (∀ t, 16 ≤ t → t < 64 → ws.getD t 0 =
      smallSigma1_256 (ws.getD (t - 2) 0) + ws.getD (t - 7) 0 + smallSigma0_256 (ws.getD (t - 15) 0)
        + ws.getD (t - 16) 0)) ∧
  (∀ blk : Bytes,
    let ws := schedule variant512 blk
    ws.length = 80 ∧
    (∀ t < 16, ws.getD t 0 = beWord 64 (slice blk (8 * t) 8)) ∧
    (∀ t, 16 ≤ t → t < 80 → ws.getD t 0 =
      smallSigma1_512 (ws.getD (t - 2) 0) + ws.getD (t - 7) 0 + smallSigma0_512 (ws.getD (t - 15) 0)
        + ws.getD (t - 16) 0))

/-- R195: the SHA-2 tables are the fractional parts of roots of primes. -/
def Obligations.ShaTablesAreRootFractions : Prop :=
  primes.length = 80 ∧
  (∀ t < 64, isCubeRootFraction 32 (primes.getD t 0) (k256.getD t 0).toNat) ∧
  (∀ t < 80, isCubeRootFraction 64 (primes.getD t 0) (k512.getD t 0).toNat) ∧
  (∀ i < 8, isSquareRootFraction 32 (primes.getD i 0) ((words8ToList iv256).getD i 0).toNat) ∧
  (∀ i < 8, isSquareRootFraction 64 (primes.getD i 0) ((words8ToList iv512).getD i 0).toNat) ∧
  (∀ i < 8, isSquareRootFraction 64 (primes.getD (i + 8) 0) ((words8ToList iv384).getD i 0).toNat) ∧
  (∀ i < 8, ((words8ToList iv224).getD i 0).toNat = ((words8ToList iv384).getD i 0).toNat % 2 ^ 32)

/-- R231 to R236: the five step mappings, lane by lane. -/
def Obligations.KeccakStepMappings : Prop :=
  ∀ (s : Lanes) (rc : Word64) (x y : Nat), x < 5 → y < 5 →
    laneAt (theta s) x y
      = laneAt s x y ^^^ (columnParity s (x + 4) ^^^ rotl (columnParity s (x + 1)) 1) ∧
    laneAt (rho s) x y = rotl (laneAt s x y) (rhoAt x y) ∧
    laneAt (pi s) y (2 * x + 3 * y) = laneAt s x y ∧
    laneAt (chi s) x y = laneAt s x y ^^^ (~~~(laneAt s (x + 1) y) &&& laneAt s (x + 2) y) ∧
    laneAt (iota s rc) x y = (if x = 0 ∧ y = 0 then laneAt s 0 0 ^^^ rc else laneAt s x y)

/-- R233, R237: the rotation offsets and round constants come from their generation methods. -/
def Obligations.KeccakTablesAreGenerated : Prop :=
  rhoAt 0 0 = 0 ∧ (∀ v ∈ rhoWalk 24 0 1 0, rhoAt v.1 v.2.1 = v.2.2) ∧
  (∀ x < 5, ∀ y < 5, x = 0 ∧ y = 0 ∨ (x, y) ∈ (rhoWalk 24 0 1 0).map fun v => (v.1, v.2.1)) ∧
  roundConstants.length = 24 ∧
  (∀ ir < 24, ∀ z < 64, (roundConstants.getD ir 0).getLsbD z
    = ([0, 1, 2, 3, 4, 5, 6].any fun j => z == 2 ^ j - 1 && rcBit (j + 7 * ir)))

/-- R281 to R283: each row of the selection tables is a permutation of 0..15, every rotation is in 5..15, and
the constants are the roots R283 names. -/
def Obligations.RipemdTables : Prop :=
  rmdRL.length = 80 ∧ rmdRR.length = 80 ∧ rmdSL.length = 80 ∧ rmdSR.length = 80 ∧
  (∀ r < 5, (tableRow rmdRL r).Perm (List.range 16) ∧ (tableRow rmdRR r).Perm (List.range 16)) ∧
  (∀ s ∈ rmdSL ++ rmdSR, 5 ≤ s ∧ s ≤ 15) ∧
  (rmdKL.getD 0 1 = 0 ∧ rmdKR.getD 4 1 = 0) ∧
  (∀ i < 4, let n := [2, 3, 5, 7].getD i 0
    let kl := (rmdKL.getD (i + 1) 0).toNat
    let kr := (rmdKR.getD i 0).toNat
    kl ^ 2 ≤ n * 2 ^ 60 ∧ n * 2 ^ 60 < (kl + 1) ^ 2 ∧ kr ^ 3 ≤ n * 2 ^ 90 ∧ n * 2 ^ 90 < (kr + 1) ^ 3)

/-- Values of the four block functions that the spec prints: R187, R188, R238, R285. -/
def Obligations.BlockFunctionsOnPrintedInputs : Prop :=
  compress256 ⟨0, 0, 0, 0, 0, 0, 0, 0⟩ (zeros 64)
    = ⟨0x7ca51614, 0x425c3ba8, 0xce54dd2f, 0xc2020ae7, 0xb6e574d1, 0x98136d0f, 0xae7e26cc, 0xbf0be7a6⟩ ∧
  compress512 ⟨0, 0, 0, 0, 0, 0, 0, 0⟩ (zeros 128)
    = ⟨0xad3a5da838ebf830, 0x5d7142ff85fcbedb, 0x7fa8bf86d6f7ca99, 0x1c6b15b039d70bbf,
       0x29f6515289923518, 0x6fd7101d5f2e8f3a, 0x1c358d2476531450, 0x568c0d99d756dc3c⟩ ∧
  (keccakF (Vector.replicate 25 0)).toList.take 5
    = [0xf1258f7940e1dde7, 0x84d5ccf933c0478a, 0xd598261ea65aa9ee, 0xbd1547306f80494d, 0x8b284e056253d057] ∧
  compressRmd ivRmd (0x80 :: zeros 63)
    = ⟨0xa585119c, 0x54fce9c5, 0x97082861, 0x48f5e87e, 0x318d25b2⟩
end

