-- ==== Sys2Proof/Laws/Primitives.lean ====
section
/-! SUPPORT. Lengths and values of the byte and word primitives. -/

namespace Sys2Proof.Machine

@[simp] theorem zeros_length (n : Nat) : (zeros n).length = n := List.length_replicate ..

@[simp] theorem vecOf_getElem {α : Type} {n : Nat} (f : Fin n → α) (i : Nat) (h : i < n) :
    (vecOf f)[i] = f ⟨i, h⟩ := by
  simp [vecOf]

@[simp] theorem vecOf_toList {α : Type} {n : Nat} (f : Fin n → α) : (vecOf f).toList = List.ofFn f := by
  simp [vecOf, Vector.toList]

@[simp] theorem beBytes_length {w : Nat} (x : BitVec w) : (beBytes x).length = w / 8 := by simp [beBytes]

@[simp] theorem leBytes_length {w : Nat} (x : BitVec w) : (leBytes x).length = w / 8 := by simp [leBytes]

@[simp] theorem xorRep_length (m : Bytes) (b : Byte) : (xorRep m b).length = m.length := by simp [xorRep]

/-! ### Byte strings as numbers -/

theorem leNat_append (a b : Bytes) : leNat (a ++ b) = leNat a + 256 ^ a.length * leNat b := by
  induction a with
  | nil => simp [leNat]
  | cons v a ih =>
    simp only [leNat, List.cons_append, List.foldr_cons, List.length_cons, pow_succ] at ih ⊢
    rw [ih]; ring

theorem leNat_lt (b : Bytes) : leNat b < 256 ^ b.length := by
  induction b with
  | nil => simp [leNat]
  | cons v b ih =>
    have := v.isLt
    simp only [leNat, List.foldr_cons, List.length_cons, pow_succ] at *
    omega

theorem leNat_singleton (v : Byte) : leNat [v] = v.toNat := by simp [leNat]

theorem beNat_eq_leNat_reverse (b : Bytes) : beNat b = leNat b.reverse := by
  induction b using List.reverseRecOn with
  | nil => rfl
  | append_singleton b v ih =>
    rw [List.reverse_append, leNat_append, ← ih]
    simp only [beNat, List.foldl_append, List.foldl_cons, List.foldl_nil, List.reverse_singleton,
      leNat_singleton, List.length_singleton, pow_one]
    ring

/-- n bytes of x from its byte 0 on are x mod 256^n. -/
theorem leNat_bytes {w : Nat} (x : BitVec w) (n : Nat) :
    leNat ((List.range n).map fun i => x.extractLsb' (8 * i) 8) = x.toNat % 256 ^ n := by
  induction n with
  | zero => simp [leNat, Nat.mod_one]
  | succ n ih =>
    rw [List.range_succ, List.map_append, leNat_append, ih]
    simp only [List.map_cons, List.map_nil, leNat_singleton, List.length_map, List.length_range,
      BitVec.extractLsb'_toNat, Nat.shiftRight_eq_div_pow]
    have h256 : (2 : Nat) ^ (8 * n) = 256 ^ n := by rw [pow_mul]; norm_num
    rw [h256, show (2 : Nat) ^ 8 = 256 by norm_num, pow_succ, Nat.mod_mul]

theorem leNat_leBytes {w : Nat} (x : BitVec w) (h : 8 ∣ w) : leNat (leBytes x) = x.toNat := by
  obtain ⟨k, rfl⟩ := h
  have hx : x.toNat < 256 ^ k := by
    have := x.isLt
    rwa [pow_mul, show (2 : Nat) ^ 8 = 256 by norm_num] at this
  rw [leBytes, leNat_bytes, Nat.mul_div_cancel_left k (by decide), Nat.mod_eq_of_lt hx]

/-- The big-endian bytes are the little-endian ones in reverse. -/
theorem beBytes_eq_reverse {w : Nat} (x : BitVec w) (h : 8 ∣ w) : beBytes x = (leBytes x).reverse := by
  obtain ⟨k, rfl⟩ := h
  apply List.ext_getElem
  · simp
  · intro i h1 h2
    simp only [beBytes, leBytes, List.getElem_map, List.getElem_range, List.getElem_reverse,
      List.length_map, List.length_range]
    congr 1
    simp at h1
    omega

theorem beNat_beBytes {w : Nat} (x : BitVec w) (h : 8 ∣ w) : beNat (beBytes x) = x.toNat := by
  rw [beNat_eq_leNat_reverse, beBytes_eq_reverse x h, List.reverse_reverse, leNat_leBytes x h]

end Sys2Proof.Machine
end

