-- ==== Sys2Proof/Laws/State.lean ====
section
/-! SUPPORT. One lemma per field per update of the state and of a context record, and what `complete` can
answer. -/

namespace Sys2Proof.Machine

/-! ### respond, raise, succeed -/

@[simp] theorem respond_ctx (r : Response) (s : State) : (respond r s).ctx = s.ctx := rfl
@[simp] theorem respond_hm (r : Response) (s : State) : (respond r s).hm = s.hm := rfl
@[simp] theorem respond_keccakSuffix (r : Response) (s : State) :
    (respond r s).keccakSuffix = s.keccakSuffix := rfl
@[simp] theorem respond_inputs (r : Response) (s : State) : (respond r s).inputs = s.inputs := rfl
@[simp] theorem respond_responses (r : Response) (s : State) :
    (respond r s).responses = s.responses ++ [r] := rfl

@[simp] theorem raise_ctx (st : Status) (s : State) : (raise st s).ctx = s.ctx := rfl
@[simp] theorem raise_hm (st : Status) (s : State) : (raise st s).hm = s.hm := rfl
@[simp] theorem raise_keccakSuffix (st : Status) (s : State) :
    (raise st s).keccakSuffix = s.keccakSuffix := rfl
@[simp] theorem raise_inputs (st : Status) (s : State) : (raise st s).inputs = s.inputs := rfl
@[simp] theorem raise_responses (st : Status) (s : State) :
    (raise st s).responses = s.responses ++ [⟨st, 0x0#64, []⟩] := rfl

@[simp] theorem succeed_ctx (v : Word64) (o : Bytes) (s : State) : (succeed v o s).ctx = s.ctx := rfl
@[simp] theorem succeed_hm (v : Word64) (o : Bytes) (s : State) : (succeed v o s).hm = s.hm := rfl
@[simp] theorem succeed_keccakSuffix (v : Word64) (o : Bytes) (s : State) :
    (succeed v o s).keccakSuffix = s.keccakSuffix := rfl
@[simp] theorem succeed_inputs (v : Word64) (o : Bytes) (s : State) :
    (succeed v o s).inputs = s.inputs := rfl
@[simp] theorem succeed_responses (v : Word64) (o : Bytes) (s : State) :
    (succeed v o s).responses = s.responses ++ [⟨.ok, v, o⟩] := rfl

/-! ### resetInstance, offer, send -/

@[simp] theorem resetInstance_ctx (s : State) : (resetInstance s).ctx = Context.reset := rfl
@[simp] theorem resetInstance_hm (s : State) : (resetInstance s).hm = HmacUnit.reset := rfl
@[simp] theorem resetInstance_keccakSuffix (s : State) :
    (resetInstance s).keccakSuffix = s.keccakSuffix := rfl
@[simp] theorem resetInstance_inputs (s : State) : (resetInstance s).inputs = s.inputs := rfl
@[simp] theorem resetInstance_responses (s : State) : (resetInstance s).responses = s.responses := rfl

@[simp] theorem offer_ctx (t : Transaction) (s : State) : (offer t s).ctx = s.ctx := rfl
@[simp] theorem offer_hm (t : Transaction) (s : State) : (offer t s).hm = s.hm := rfl
@[simp] theorem offer_keccakSuffix (t : Transaction) (s : State) :
    (offer t s).keccakSuffix = s.keccakSuffix := rfl
@[simp] theorem offer_inputs (t : Transaction) (s : State) :
    (offer t s).inputs = .command t :: s.inputs := rfl
@[simp] theorem offer_responses (t : Transaction) (s : State) : (offer t s).responses = s.responses := rfl

@[simp] theorem send_ctx (is : List Instr) (s : State) : (send is s).ctx = s.ctx := rfl
@[simp] theorem send_hm (is : List Instr) (s : State) : (send is s).hm = s.hm := rfl
@[simp] theorem send_keccakSuffix (is : List Instr) (s : State) :
    (send is s).keccakSuffix = s.keccakSuffix := rfl
@[simp] theorem send_inputs (is : List Instr) (s : State) :
    (send is s).inputs = s.inputs ++ is.map fun i => .command (encode i) := rfl
@[simp] theorem send_responses (is : List Instr) (s : State) : (send is s).responses = s.responses := rfl

/-! ### Context records -/

@[simp] theorem initCtx_alg (a : Alg) : (initCtx a).alg = some a := rfl
@[simp] theorem initCtx_phase (a : Alg) : (initCtx a).phase = .absorbing := rfl
@[simp] theorem initCtx_store (a : Alg) : (initCtx a).store = ivStore a := rfl
@[simp] theorem initCtx_buf (a : Alg) : (initCtx a).buf = Vector.replicate 144 0x00#8 := rfl
@[simp] theorem initCtx_buflen (a : Alg) : (initCtx a).buflen = 0#8 := rfl
@[simp] theorem initCtx_count (a : Alg) : (initCtx a).count = 0#64 := rfl

@[simp] theorem pushByte_alg (c : Context) (v : Byte) : (pushByte c v).alg = c.alg := rfl
@[simp] theorem pushByte_phase (c : Context) (v : Byte) : (pushByte c v).phase = c.phase := rfl
@[simp] theorem pushByte_store (c : Context) (v : Byte) : (pushByte c v).store = c.store := rfl
@[simp] theorem pushByte_buf (c : Context) (v : Byte) :
    (pushByte c v).buf = c.buf.setIfInBounds c.buflen.toNat v := rfl
@[simp] theorem pushByte_buflen (c : Context) (v : Byte) : (pushByte c v).buflen = c.buflen + 1#8 := rfl
@[simp] theorem pushByte_count (c : Context) (v : Byte) : (pushByte c v).count = c.count := rfl

@[simp] theorem feed_alg (c : Context) (m : Bytes) : (feed c m).alg = (absorb c m).alg := rfl
@[simp] theorem feed_phase (c : Context) (m : Bytes) : (feed c m).phase = (absorb c m).phase := rfl
@[simp] theorem feed_store (c : Context) (m : Bytes) : (feed c m).store = (absorb c m).store := rfl
@[simp] theorem feed_buf (c : Context) (m : Bytes) : (feed c m).buf = (absorb c m).buf := rfl
@[simp] theorem feed_buflen (c : Context) (m : Bytes) : (feed c m).buflen = (absorb c m).buflen := rfl
theorem feed_count (c : Context) (m : Bytes) :
    (feed c m).count = (absorb c m).count + BitVec.ofNat 64 m.length := rfl

/-! ### The HMAC unit -/

@[simp] theorem loadKey_alg (k : KeccakSuffix) (a : Alg) (key : Bytes) : (loadKey k a key).alg = some a := rfl
@[simp] theorem loadKey_phase (k : KeccakSuffix) (a : Alg) (key : Bytes) :
    (loadKey k a key).phase = .absorbing := rfl
@[simp] theorem loadKey_sinner (k : KeccakSuffix) (a : Alg) (key : Bytes) :
    (loadKey k a key).sinner = (loadKey k a key).inner := rfl
@[simp] theorem loadKey_souter (k : KeccakSuffix) (a : Alg) (key : Bytes) :
    (loadKey k a key).souter = (loadKey k a key).outer := rfl

@[simp] theorem hmacFinalize_alg (k : KeccakSuffix) (h : HmacUnit) : (hmacFinalize k h).alg = h.alg := rfl
@[simp] theorem hmacFinalize_phase (k : KeccakSuffix) (h : HmacUnit) :
    (hmacFinalize k h).phase = .finalized := rfl
@[simp] theorem hmacFinalize_inner (k : KeccakSuffix) (h : HmacUnit) :
    (hmacFinalize k h).inner = finalizeCtx k h.inner := rfl
@[simp] theorem hmacFinalize_outer (k : KeccakSuffix) (h : HmacUnit) :
    (hmacFinalize k h).outer = finalizeCtx k (outerFed k h) := rfl
@[simp] theorem hmacFinalize_sinner (k : KeccakSuffix) (h : HmacUnit) :
    (hmacFinalize k h).sinner = h.sinner := rfl
@[simp] theorem hmacFinalize_souter (k : KeccakSuffix) (h : HmacUnit) :
    (hmacFinalize k h).souter = h.souter := rfl
@[simp] theorem hmacFinalize_ipad (k : KeccakSuffix) (h : HmacUnit) : (hmacFinalize k h).ipad = h.ipad := rfl
@[simp] theorem hmacFinalize_opad (k : KeccakSuffix) (h : HmacUnit) : (hmacFinalize k h).opad = h.opad := rfl

@[simp] theorem hmacRestore_alg (h : HmacUnit) : (hmacRestore h).alg = h.alg := rfl
@[simp] theorem hmacRestore_phase (h : HmacUnit) : (hmacRestore h).phase = .absorbing := rfl
@[simp] theorem hmacRestore_inner (h : HmacUnit) : (hmacRestore h).inner = h.sinner := rfl
@[simp] theorem hmacRestore_outer (h : HmacUnit) : (hmacRestore h).outer = h.souter := rfl
@[simp] theorem hmacRestore_sinner (h : HmacUnit) : (hmacRestore h).sinner = h.sinner := rfl
@[simp] theorem hmacRestore_souter (h : HmacUnit) : (hmacRestore h).souter = h.souter := rfl
@[simp] theorem hmacRestore_ipad (h : HmacUnit) : (hmacRestore h).ipad = h.ipad := rfl
@[simp] theorem hmacRestore_opad (h : HmacUnit) : (hmacRestore h).opad = h.opad := rfl

/-! ### complete -/

theorem complete_ok (v : Word64) (o : Bytes) (s' s : State) :
    complete .ok v o s' s = .next (succeed v o s') := rfl

theorem complete_error {st : Status} (h : st ≠ .ok) (v : Word64) (o : Bytes) (s' s : State) :
    complete st v o s' s = .next (raise st s) := if_neg h

/-- Everything a command's end can do. -/
theorem complete_cases {st : Status} {v : Word64} {o : Bytes} {s' s t : State}
    (h : complete st v o s' s = .next t) :
    (st = .ok ∧ t = succeed v o s') ∨ (st ≠ .ok ∧ t = raise st s) := by
  by_cases hst : st = .ok
  · subst hst
    rw [complete_ok] at h
    exact .inl ⟨rfl, by injection h with h; exact h.symm⟩
  · rw [complete_error hst] at h
    exact .inr ⟨hst, by injection h with h; exact h.symm⟩

theorem complete_isNext (st : Status) (v : Word64) (o : Bytes) (s' s : State) :
    ∃ t, complete st v o s' s = .next t := by
  by_cases hst : st = .ok
  · exact ⟨_, by rw [hst, complete_ok]⟩
  · exact ⟨_, complete_error hst ..⟩

end Sys2Proof.Machine
end

