-- ==== Sys2Proof/Laws/Context.lean ====
section
/-! SUPPORT. What the context primitives do, once each: ProcessBlock, Absorb, Feed, the paddings, Finalize. -/

namespace Sys2Proof.Machine

/-! ### The constants -/

theorem blockSize_ge (a : Alg) : 64 ≤ blockSize a := by cases a <;> decide

theorem blockSize_le (a : Alg) : blockSize a ≤ 144 := by cases a <;> decide

theorem digestSize_le (a : Alg) : digestSize a ≤ 64 := by cases a <;> decide

theorem lengthFieldSize_le (f : Family) : lengthFieldSize f ≤ 16 := by cases f <;> decide

theorem maxLen_lt (a : Alg) : maxLen a < 2 ^ 64 := by cases a <;> decide

theorem two_blockSize_le_maxLen (a : Alg) : 2 * blockSize a ≤ maxLen a := by cases a <;> decide

@[simp] theorem blockSizeOf_some (a : Alg) : blockSizeOf (some a) = blockSize a := rfl
@[simp] theorem digestSizeOf_some (a : Alg) : digestSizeOf (some a) = digestSize a := rfl
@[simp] theorem maxLenOf_some (a : Alg) : maxLenOf (some a) = maxLen a := rfl

/-! ### ProcessBlock (R330) -/

@[simp] theorem processBlock_alg (c : Context) (blk : Bytes) : (processBlock c blk).alg = c.alg := by
  unfold processBlock; split <;> simp_all

@[simp] theorem processBlock_phase (c : Context) (blk : Bytes) : (processBlock c blk).phase = c.phase := by
  unfold processBlock; split <;> rfl

@[simp] theorem processBlock_buf (c : Context) (blk : Bytes) : (processBlock c blk).buf = c.buf := by
  unfold processBlock; split <;> rfl

@[simp] theorem processBlock_buflen (c : Context) (blk : Bytes) : (processBlock c blk).buflen = c.buflen := by
  unfold processBlock; split <;> rfl

@[simp] theorem processBlock_count (c : Context) (blk : Bytes) : (processBlock c blk).count = c.count := by
  unfold processBlock; split <;> rfl

theorem processBlock_store {c : Context} {a : Alg} (h : c.alg = some a) (blk : Bytes) :
    (processBlock c blk).store = processStore (familyOf a) c.store blk := by
  unfold processBlock; rw [h]

/-! ### Absorb for one byte (R331) -/

@[simp] theorem absorbByte_alg (c : Context) (v : Byte) : (absorbByte c v).alg = c.alg := by
  unfold absorbByte; dsimp only; split <;> simp

@[simp] theorem absorbByte_phase (c : Context) (v : Byte) : (absorbByte c v).phase = c.phase := by
  unfold absorbByte; dsimp only; split <;> simp

@[simp] theorem absorbByte_count (c : Context) (v : Byte) : (absorbByte c v).count = c.count := by
  unfold absorbByte; dsimp only; split <;> simp

/-- Below BS − 1 buffered bytes, a byte is only buffered. -/
theorem absorbByte_short {c : Context} {a : Alg} (h : c.alg = some a)
    (hb : c.buflen.toNat + 1 < blockSize a) (v : Byte) : absorbByte c v = pushByte c v := by
  have hle := blockSize_le a
  unfold absorbByte
  dsimp only
  rw [if_neg]
  simp only [pushByte_alg, h, blockSizeOf_some, pushByte_buflen, BitVec.toNat_add, BitVec.toNat_ofNat]
  omega

/-- At BS − 1 buffered bytes, a byte completes the block, which is processed at once. -/
theorem absorbByte_full {c : Context} {a : Alg} (h : c.alg = some a)
    (hb : c.buflen.toNat + 1 = blockSize a) (v : Byte) :
    absorbByte c v =
      { processBlock (pushByte c v) (bufBytes (pushByte c v) (blockSize a)) with buflen := 0#8 } := by
  have hle := blockSize_le a
  unfold absorbByte
  dsimp only
  rw [if_pos]
  · simp only [pushByte_alg, h, blockSizeOf_some]
  · simp only [pushByte_alg, h, blockSizeOf_some, pushByte_buflen, BitVec.toNat_add, BitVec.toNat_ofNat]
    omega

theorem absorbByte_buflen {c : Context} {a : Alg} (h : c.alg = some a)
    (hb : c.buflen.toNat < blockSize a) (v : Byte) :
    (absorbByte c v).buflen.toNat = (c.buflen.toNat + 1) % blockSize a := by
  have hle := blockSize_le a
  by_cases hs : c.buflen.toNat + 1 < blockSize a
  · rw [absorbByte_short h hs, Nat.mod_eq_of_lt hs]
    simp only [pushByte_buflen, BitVec.toNat_add, BitVec.toNat_ofNat]
    omega
  · have he : c.buflen.toNat + 1 = blockSize a := by omega
    rw [absorbByte_full h he, he, Nat.mod_self]
    rfl

/-! ### Absorb (R331) -/

@[simp] theorem absorb_nil (c : Context) : absorb c [] = c := rfl

theorem absorb_cons (c : Context) (v : Byte) (m : Bytes) : absorb c (v :: m) = absorb (absorbByte c v) m :=
  rfl

theorem absorb_append (c : Context) (m n : Bytes) : absorb c (m ++ n) = absorb (absorb c m) n :=
  List.foldl_append

@[simp] theorem absorb_alg (c : Context) (m : Bytes) : (absorb c m).alg = c.alg := by
  induction m generalizing c with
  | nil => rfl
  | cons v m ih => rw [absorb_cons, ih, absorbByte_alg]

@[simp] theorem absorb_phase (c : Context) (m : Bytes) : (absorb c m).phase = c.phase := by
  induction m generalizing c with
  | nil => rfl
  | cons v m ih => rw [absorb_cons, ih, absorbByte_phase]

/-- "It does not touch `c.count`" (R331). -/
@[simp] theorem absorb_count (c : Context) (m : Bytes) : (absorb c m).count = c.count := by
  induction m generalizing c with
  | nil => rfl
  | cons v m ih => rw [absorb_cons, ih, absorbByte_count]

/-- Absorb neither reads nor writes the counter. -/
theorem absorb_setCount (c : Context) (x : Word64) (m : Bytes) :
    absorb { c with count := x } m = { absorb c m with count := x } := by
  induction m generalizing c with
  | nil => rfl
  | cons v m ih =>
    have hv : absorbByte { c with count := x } v = { absorbByte c v with count := x } := by
      unfold absorbByte processBlock
      dsimp only [pushByte, bufBytes]
      split
      · cases c.alg <;> rfl
      · rfl
    rw [absorb_cons, hv, ih]; rfl

/-- Feeding two byte strings is feeding their concatenation. -/
theorem feed_append (c : Context) (m n : Bytes) : feed c (m ++ n) = feed (feed c m) n := by
  have h1 : feed c (m ++ n)
      = { absorb (absorb c m) n with count := c.count + BitVec.ofNat 64 (m ++ n).length } := by
    rw [feed, absorb_append]; simp
  have h2 : feed (feed c m) n = { absorb (absorb c m) n with
      count := c.count + BitVec.ofNat 64 m.length + BitVec.ofNat 64 n.length } := by
    have h3 : absorb (feed c m) n = { absorb (absorb c m) n with count := (feed c m).count } :=
      absorb_setCount (absorb c m) _ n
    rw [feed.eq_1 (feed c m), h3]; simp [feed]
  rw [h1, h2]
  simp [BitVec.ofNat_add, BitVec.add_assoc]

theorem absorb_buflen_lt {c : Context} {a : Alg} (h : c.alg = some a)
    (hb : c.buflen.toNat < blockSize a) (m : Bytes) : (absorb c m).buflen.toNat < blockSize a := by
  have hge := blockSize_ge a
  induction m generalizing c with
  | nil => exact hb
  | cons v m ih =>
    rw [absorb_cons]
    refine ih (by rw [absorbByte_alg, h]) ?_
    rw [absorbByte_buflen h hb]
    exact Nat.mod_lt _ (by omega)

/-- Anything that every processed block keeps in the store, Absorb keeps. -/
theorem absorb_store_induct {P : Vector Word64 25 → Prop} {c : Context} {a : Alg} (h : c.alg = some a)
    (hP : ∀ s blk, P s → P (processStore (familyOf a) s blk)) (m : Bytes) (h0 : P c.store) :
    P (absorb c m).store := by
  induction m generalizing c with
  | nil => exact h0
  | cons v m ih =>
    rw [absorb_cons]
    refine ih (by rw [absorbByte_alg, h]) ?_
    unfold absorbByte
    dsimp only
    split
    · show P (processBlock (pushByte c v) _).store
      rw [processBlock_store (a := a) (by simpa using h)]
      exact hP _ _ h0
    · exact h0

/-! ### The buffer's valid bytes (R32) -/

/-- The valid bytes of the buffer, `c.buf[0 .. buflen)`. -/
def buffered (c : Context) : Bytes := bufBytes c c.buflen.toNat

theorem buffered_length {c : Context} (h : c.buflen.toNat ≤ 144) : (buffered c).length = c.buflen.toNat := by
  simp [buffered, bufBytes, h]

theorem bufBytes_pushByte {c : Context} (h : c.buflen.toNat < 144) (v : Byte) :
    bufBytes (pushByte c v) (c.buflen.toNat + 1) = buffered c ++ [v] := by
  have hlen : c.buflen.toNat < c.buf.toList.length := by simpa using h
  have hset : (c.buf.setIfInBounds c.buflen.toNat v).toList = c.buf.toList.set c.buflen.toNat v := by
    simp [Vector.toList]
  simp only [bufBytes, buffered, pushByte_buf, hset]
  rw [List.take_succ_eq_append_getElem (by simpa using hlen), List.take_set_of_le (by omega)]
  simp

/-- Bytes that leave the buffer below BS are only buffered. -/
theorem absorb_short {c : Context} {a : Alg} (h : c.alg = some a) (m : Bytes)
    (hb : c.buflen.toNat + m.length < blockSize a) :
    (absorb c m).store = c.store ∧ (absorb c m).buflen.toNat = c.buflen.toNat + m.length ∧
      buffered (absorb c m) = buffered c ++ m := by
  have hle := blockSize_le a
  induction m generalizing c with
  | nil => simp
  | cons v m ih =>
    simp only [List.length_cons] at hb
    have hs : c.buflen.toNat + 1 < blockSize a := by omega
    have hbl : (pushByte c v).buflen.toNat = c.buflen.toNat + 1 := by
      simp only [pushByte_buflen, BitVec.toNat_add, BitVec.toNat_ofNat]; omega
    rw [absorb_cons, absorbByte_short h hs]
    obtain ⟨h1, h2, h3⟩ := ih (c := pushByte c v) h (by rw [hbl]; omega)
    refine ⟨h1, by rw [h2, hbl, List.length_cons]; omega, ?_⟩
    rw [h3, buffered, hbl, bufBytes_pushByte (by omega)]
    simp

/-- Bytes that bring the buffer to exactly BS make one block of it, which is processed. -/
theorem absorb_fill {c : Context} {a : Alg} (h : c.alg = some a) {m : Bytes} (hm : m ≠ [])
    (hb : c.buflen.toNat + m.length = blockSize a) :
    (absorb c m).store = processStore (familyOf a) c.store (buffered c ++ m) ∧
      (absorb c m).buflen = 0#8 := by
  have hle := blockSize_le a
  have hlast := List.dropLast_append_getLast hm
  have hdl : m.dropLast.length = m.length - 1 := List.length_dropLast
  have hpos : 0 < m.length := List.length_pos_iff.mpr hm
  obtain ⟨h1, h2, h3⟩ := absorb_short h m.dropLast (by rw [hdl]; omega)
  rw [← hlast, absorb_append, absorb_cons, absorb_nil]
  generalize hd : absorb c m.dropLast = d at h1 h2 h3 ⊢
  have hda : d.alg = some a := by rw [← hd, absorb_alg, h]
  have hfull : d.buflen.toNat + 1 = blockSize a := by rw [h2, hdl]; omega
  rw [absorbByte_full hda hfull]
  refine ⟨?_, rfl⟩
  show (processBlock (pushByte d _) _).store = _
  rw [processBlock_store (a := a) (by simpa using hda), ← hfull, bufBytes_pushByte (by omega), h3,
    pushByte_store, h1, List.append_assoc]

/-- After Absorb, `buflen = (buflen_before + |m|) mod BS`, for one byte at a time. -/
theorem absorb_buflen_mod {c : Context} {a : Alg} (h : c.alg = some a)
    (hb : c.buflen.toNat < blockSize a) (m : Bytes) :
    (absorb c m).buflen.toNat = (c.buflen.toNat + m.length) % blockSize a := by
  have hge := blockSize_ge a
  induction m generalizing c with
  | nil => simp [Nat.mod_eq_of_lt hb]
  | cons v m ih =>
    have hlt : (absorbByte c v).buflen.toNat < blockSize a := by
      rw [absorbByte_buflen h hb]; exact Nat.mod_lt _ (by omega)
    rw [absorb_cons, ih (by rw [absorbByte_alg, h]) hlt, absorbByte_buflen h hb, Nat.mod_add_mod,
      List.length_cons]
    congr 1; omega

/-! ### The paddings (R241, R333) -/

/-- The loop of MDPad absorbs zero bytes until the buffer length is the target. -/
theorem padZeros_eq_absorb {a : Alg} {target : Nat} (ht : target < blockSize a) (n : Nat) {c : Context}
    (h : c.alg = some a) (hb : c.buflen.toNat < blockSize a)
    (hn : (target + blockSize a - c.buflen.toNat) % blockSize a ≤ n) :
    padZeros target n c = absorb c (zeros ((target + blockSize a - c.buflen.toNat) % blockSize a)) := by
  have hge := blockSize_ge a
  induction n generalizing c with
  | zero =>
    have h0 : (target + blockSize a - c.buflen.toNat) % blockSize a = 0 := by omega
    rw [h0]; rfl
  | succ n ih =>
    by_cases he : c.buflen.toNat = target
    · have h0 : (target + blockSize a - c.buflen.toNat) % blockSize a = 0 := by
        rw [he, Nat.add_sub_cancel_left, Nat.mod_self]
      rw [padZeros, if_pos he, h0]; rfl
    · rw [padZeros, if_neg he, absorb_cons, absorb_nil]
      have hlt : (absorbByte c 0x00#8).buflen.toNat < blockSize a := by
        rw [absorbByte_buflen h hb]; exact Nat.mod_lt _ (by omega)
      have hstep : (target + blockSize a - c.buflen.toNat) % blockSize a
          = (target + blockSize a - (absorbByte c 0x00#8).buflen.toNat) % blockSize a + 1 := by
        rw [absorbByte_buflen h hb]
        by_cases hw : c.buflen.toNat + 1 = blockSize a
        · rw [hw, Nat.mod_self, Nat.sub_zero, Nat.add_mod_right, Nat.mod_eq_of_lt ht,
            show target + blockSize a - c.buflen.toNat = target + 1 by omega,
            Nat.mod_eq_of_lt (by omega)]
        · rw [Nat.mod_eq_of_lt (show c.buflen.toNat + 1 < blockSize a by omega)]
          by_cases hg : c.buflen.toNat < target
          · rw [show target + blockSize a - c.buflen.toNat = (target - c.buflen.toNat) + blockSize a by omega,
              show target + blockSize a - (c.buflen.toNat + 1)
                = (target - (c.buflen.toNat + 1)) + blockSize a by omega,
              Nat.add_mod_right, Nat.add_mod_right, Nat.mod_eq_of_lt (by omega),
              Nat.mod_eq_of_lt (by omega)]
            omega
          · rw [Nat.mod_eq_of_lt (by omega), Nat.mod_eq_of_lt (by omega)]
            omega
      rw [ih (by rw [absorbByte_alg, h]) hlt (by omega), hstep]
      rw [zeros, zeros, List.replicate_succ, absorb_cons]

/-- The zero bytes of MDPad's padding, for b buffered bytes (R333). -/
def mdZeros (a : Alg) (b : Nat) : Nat :=
  (blockSize a - lengthFieldSize (familyOf a) + blockSize a - (b + 1) % blockSize a) % blockSize a

/-- The padding MDPad appends, for b buffered bytes and a counter (R333, R334). -/
def mdPadding (a : Alg) (b : Nat) (count : Word64) : Bytes :=
  0x80#8 :: (zeros (mdZeros a b) ++ lenField (familyOf a) count)

theorem lenField_length (f : Family) (count : Word64) : (lenField f count).length = lengthFieldSize f := by
  cases f <;> simp [lenField, lengthFieldSize]

/-- MDPad absorbs its padding. -/
theorem mdPad_eq_absorb {a : Alg} (hf : familyOf a ≠ .keccak) {c : Context} (h : c.alg = some a)
    (hb : c.buflen.toNat < blockSize a) : mdPad a c = absorb c (mdPadding a c.buflen.toNat c.count) := by
  have hge := blockSize_ge a
  have hlf : 8 ≤ lengthFieldSize (familyOf a) := by cases a <;> first | decide | exact absurd rfl hf
  have hlt : (absorb c [0x80#8]).buflen.toNat < blockSize a := absorb_buflen_lt h hb _
  have hbl : (absorb c [0x80#8]).buflen.toNat = (c.buflen.toNat + 1) % blockSize a :=
    absorbByte_buflen h hb _
  unfold mdPad
  dsimp only
  rw [padZeros_eq_absorb (a := a) (by omega) _ (by rw [absorb_alg, h]) hlt
    (le_of_lt (Nat.mod_lt _ (by omega))), hbl, absorb_count, absorb_count, ← absorb_append,
    ← absorb_append]
  rfl

/-- MDPad's padding brings the buffer to one or two whole blocks (R335). -/
theorem mdPadding_length {a : Alg} (hf : familyOf a ≠ .keccak) {b : Nat} (hb : b < blockSize a)
    (count : Word64) :
    b + (mdPadding a b count).length
      = if b + lengthFieldSize (familyOf a) + 1 ≤ blockSize a then blockSize a else 2 * blockSize a := by
  have hge := blockSize_ge a
  have hlf := lengthFieldSize_le (familyOf a)
  have hlf1 : 1 ≤ lengthFieldSize (familyOf a) := by cases a <;> first | decide | exact absurd rfl hf
  simp only [mdPadding, List.length_cons, List.length_append, zeros_length, lenField_length, mdZeros]
  generalize lengthFieldSize (familyOf a) = lf at *
  generalize blockSize a = bs at *
  by_cases h1 : b + 1 = bs
  · rw [h1, Nat.mod_self, Nat.sub_zero, Nat.add_mod_right, Nat.mod_eq_of_lt (by omega), if_neg (by omega)]
    omega
  · rw [Nat.mod_eq_of_lt (show b + 1 < bs by omega)]
    by_cases h2 : b + lf + 1 ≤ bs
    · rw [if_pos h2, show bs - lf + bs - (b + 1) = (bs - lf - (b + 1)) + bs by omega, Nat.add_mod_right,
        Nat.mod_eq_of_lt (by omega)]
      omega
    · rw [if_neg h2, Nat.mod_eq_of_lt (by omega)]
      omega

@[simp] theorem mdPad_alg (a : Alg) (c : Context) : (mdPad a c).alg = c.alg := by
  have hz : ∀ t n (d : Context), (padZeros t n d).alg = d.alg := by
    intro t n
    induction n with
    | zero => intro d; rfl
    | succ n ih => intro d; rw [padZeros]; split <;> simp [ih]
  simp [mdPad, hz]

@[simp] theorem mdPad_count (a : Alg) (c : Context) : (mdPad a c).count = c.count := by
  have hz : ∀ t n (d : Context), (padZeros t n d).count = d.count := by
    intro t n
    induction n with
    | zero => intro d; rfl
    | succ n ih => intro d; rw [padZeros]; split <;> simp [ih]
  simp [mdPad, hz]

/-- MDPad ends on a block boundary (R333). -/
theorem mdPad_buflen {a : Alg} (hf : familyOf a ≠ .keccak) {c : Context} (h : c.alg = some a)
    (hb : c.buflen.toNat < blockSize a) : (mdPad a c).buflen = 0#8 := by
  apply BitVec.eq_of_toNat_eq
  rw [mdPad_eq_absorb hf h hb, absorb_buflen_mod h hb, mdPadding_length hf hb]
  split <;> simp

@[simp] theorem keccakPad_alg (k : KeccakSuffix) (a : Alg) (c : Context) : (keccakPad k a c).alg = c.alg := by
  simp [keccakPad]

@[simp] theorem keccakPad_count (k : KeccakSuffix) (a : Alg) (c : Context) :
    (keccakPad k a c).count = c.count := by
  simp [keccakPad]

@[simp] theorem keccakPad_buflen (k : KeccakSuffix) (a : Alg) (c : Context) :
    (keccakPad k a c).buflen = 0#8 := rfl

theorem keccakPad_store (k : KeccakSuffix) {a : Alg} {c : Context} (h : c.alg = some a) :
    (keccakPad k a c).store
      = processStore (familyOf a) c.store (keccakPadBlock k (blockSize a) (buffered c)) := by
  show (processBlock c _).store = _
  rw [processBlock_store h]; rfl

@[simp] theorem padCtx_alg (k : KeccakSuffix) (a : Alg) (c : Context) : (padCtx k a c).alg = c.alg := by
  unfold padCtx; split <;> simp

@[simp] theorem padCtx_count (k : KeccakSuffix) (a : Alg) (c : Context) :
    (padCtx k a c).count = c.count := by
  unfold padCtx; split <;> simp

theorem padCtx_buflen (k : KeccakSuffix) {a : Alg} {c : Context} (h : c.alg = some a)
    (hb : c.buflen.toNat < blockSize a) : (padCtx k a c).buflen = 0#8 := by
  unfold padCtx
  split
  · exact mdPad_buflen (by simp_all) h hb
  · exact mdPad_buflen (by simp_all) h hb
  · exact keccakPad_buflen k a c
  · exact mdPad_buflen (by simp_all) h hb

/-- Anything that every processed block keeps in the store, the padding keeps. -/
theorem padCtx_store_induct (k : KeccakSuffix) {P : Vector Word64 25 → Prop} {c : Context} {a : Alg}
    (h : c.alg = some a) (hb : c.buflen.toNat < blockSize a)
    (hP : ∀ s blk, P s → P (processStore (familyOf a) s blk)) (h0 : P c.store) :
    P (padCtx k a c).store := by
  unfold padCtx
  split
  · rw [mdPad_eq_absorb (by simp_all) h hb]; exact absorb_store_induct h hP _ h0
  · rw [mdPad_eq_absorb (by simp_all) h hb]; exact absorb_store_induct h hP _ h0
  · rw [keccakPad_store k h]; exact hP _ _ h0
  · rw [mdPad_eq_absorb (by simp_all) h hb]; exact absorb_store_induct h hP _ h0

/-! ### Finalize (R332) -/

theorem finalizeCtx_eq (k : KeccakSuffix) {a : Alg} {c : Context} (h : c.alg = some a) :
    finalizeCtx k c = { padCtx k a c with phase := .finalized } := by
  unfold finalizeCtx; rw [h]

theorem finalizeDigest_eq (k : KeccakSuffix) {a : Alg} {c : Context} (h : c.alg = some a) :
    finalizeDigest k c = digest a (finalizeCtx k c) := by
  unfold finalizeDigest; rw [h]

@[simp] theorem finalizeCtx_phase (k : KeccakSuffix) (c : Context) :
    (finalizeCtx k c).phase = .finalized := by
  unfold finalizeCtx; split <;> rfl

@[simp] theorem finalizeCtx_alg (k : KeccakSuffix) (c : Context) : (finalizeCtx k c).alg = c.alg := by
  unfold finalizeCtx; split <;> simp [*]

@[simp] theorem finalizeCtx_count (k : KeccakSuffix) (c : Context) :
    (finalizeCtx k c).count = c.count := by
  unfold finalizeCtx; split <;> simp

theorem serialise_length (f : Family) (s : Vector Word64 25) :
    (serialise f s).length = match f with | .sha2_32 => 32 | .sha2_64 => 64 | .keccak => 200 | .rmd160 => 20 := by
  cases f with
  | sha2_32 => simp [serialise, words8ToList]
  | sha2_64 => simp [serialise, words8ToList]
  | rmd160 => simp [serialise, words5ToList]
  | keccak =>
    show (s.toList.flatMap leBytes).length = 200
    rw [List.length_flatMap]
    simp

/-! ### What blocks keep in the store (R35(b), R35(c)) -/

@[simp] theorem writeWords_getElem (s : Vector Word64 25) (ws : List Word64) (i : Nat) (h : i < 25) :
    (writeWords s ws)[i] = ws.getD i s[i] := by
  simp [writeWords]

@[simp] theorem zext64_length (ws : List Word32) : (zext64 ws).length = ws.length := by simp [zext64]

@[simp] theorem words8ToList_length {w : Nat} (v : Words8 w) : (words8ToList v).length = 8 := rfl

@[simp] theorem words5ToList_length (v : Words5) : (words5ToList v).length = 5 := rfl

theorem getD_of_length_le {α : Type} {ws : List α} {i : Nat} (h : ws.length ≤ i) (d : α) :
    ws.getD i d = d := by
  simp [List.getD, h]

/-- Writing zero-extended 32-bit words keeps the upper halves zero. -/
theorem writeWords_zext_narrow {s : Vector Word64 25} (h : ∀ i : Fin 25, s[i].toNat < 2 ^ 32)
    (ws : List Word32) (i : Fin 25) : (writeWords s (zext64 ws))[i].toNat < 2 ^ 32 := by
  show (writeWords s (zext64 ws))[i.val].toNat < 2 ^ 32
  rw [writeWords_getElem _ _ _ i.isLt]
  by_cases hi : i.val < ws.length
  · have := ws[i.val].isLt
    simp [List.getD, zext64, hi]
    omega
  · rw [getD_of_length_le (by simpa using hi)]
    exact h i

end Sys2Proof.Machine
end

