-- ==== Sys2Proof/Laws/Decode.lean ====
section
/-! SUPPORT. Codes and fields: each table is read back by its inverse, and each field of an assembled command
word is what was put there. -/

namespace Sys2Proof

@[simp] theorem algOfCode_algCode (a : Alg) : algOfCode (algCode a) = some a := by cases a <;> rfl

theorem algOfCode_eq_some {c : BitVec 4} {a : Alg} (h : algOfCode c = some a) : c = algCode a := by
  revert h; revert c; cases a <;> decide

theorem algCode_injective {a b : Alg} (h : algCode a = algCode b) : a = b := by
  revert h; cases a <;> cases b <;> decide

@[simp] theorem opcodeOfCode_opcodeCode (op : Opcode) : opcodeOfCode (opcodeCode op) = some op := by
  cases op <;> rfl

theorem opcodeOfCode_eq_some {c : BitVec 8} {op : Opcode} (h : opcodeOfCode c = some op) :
    c = opcodeCode op := by
  revert h; revert c; cases op <;> decide +kernel

@[simp] theorem regOfNumber_regNumber (r : Reg) : regOfNumber (regNumber r) = some r := by
  cases r with
  | ctxInfo => rfl
  | ctxCount => rfl
  | hmacInfo => rfl
  | ctxS i => revert i; decide
  | ctxBufw k => revert k; decide

theorem regOfNumber_eq_some {n : Word64} {r : Reg} (h : regOfNumber n = some r) : n = regNumber r := by
  unfold regOfNumber at h
  split at h
  · cases h; assumption
  split at h
  · cases h; assumption
  split at h
  · cases h; assumption
  split at h
  · rename_i hr; cases h
    apply BitVec.eq_of_toNat_eq
    simp only [regNumber, BitVec.toNat_ofNat]; omega
  split at h
  · rename_i hr; cases h
    apply BitVec.eq_of_toNat_eq
    simp only [regNumber, BitVec.toNat_ofNat]; omega
  · cases h

/-! ### The fields of an assembled word -/

/-- Concatenation as a number: the left part counts in units of the right part's range. -/
theorem toNat_append_add {m n : Nat} (x : BitVec m) (y : BitVec n) :
    (x ++ y).toNat = x.toNat * 2 ^ n + y.toNat := by
  rw [BitVec.toNat_append, ← Nat.shiftLeft_add_eq_or_of_lt y.isLt, Nat.shiftLeft_eq]

theorem packCw_toNat (op : Opcode) (alg : BitVec 4) (outlen : BitVec 7) (full : BitVec 1) :
    (packCw op alg outlen full).toNat
      = (opcodeCode op).toNat + 256 * alg.toNat + 4096 * outlen.toNat + 524288 * full.toNat := by
  simp only [packCw, toNat_append_add, BitVec.toNat_ofNat]
  omega

@[simp] theorem opcField_packCw (op : Opcode) (alg : BitVec 4) (outlen : BitVec 7) (full : BitVec 1) :
    opcField (packCw op alg outlen full) = opcodeCode op := by
  have h1 := (opcodeCode op).isLt
  apply BitVec.eq_of_toNat_eq
  simp only [opcField, BitVec.extractLsb'_toNat, packCw_toNat, Nat.shiftRight_eq_div_pow]
  omega

@[simp] theorem algField_packCw (op : Opcode) (alg : BitVec 4) (outlen : BitVec 7) (full : BitVec 1) :
    algField (packCw op alg outlen full) = alg := by
  have h1 := (opcodeCode op).isLt
  have h2 := alg.isLt
  apply BitVec.eq_of_toNat_eq
  simp only [algField, BitVec.extractLsb'_toNat, packCw_toNat, Nat.shiftRight_eq_div_pow]
  omega

@[simp] theorem outlenField_packCw (op : Opcode) (alg : BitVec 4) (outlen : BitVec 7) (full : BitVec 1) :
    outlenField (packCw op alg outlen full) = outlen := by
  have h1 := (opcodeCode op).isLt
  have h2 := alg.isLt
  have h3 := outlen.isLt
  apply BitVec.eq_of_toNat_eq
  simp only [outlenField, BitVec.extractLsb'_toNat, packCw_toNat, Nat.shiftRight_eq_div_pow]
  omega

@[simp] theorem fullField_packCw (op : Opcode) (alg : BitVec 4) (outlen : BitVec 7) (full : BitVec 1) :
    fullField (packCw op alg outlen full) = full := by
  have h1 := (opcodeCode op).isLt
  have h2 := alg.isLt
  have h3 := outlen.isLt
  have h4 := full.isLt
  apply BitVec.eq_of_toNat_eq
  simp only [fullField, BitVec.extractLsb'_toNat, packCw_toNat, Nat.shiftRight_eq_div_pow]
  omega

@[simp] theorem rsvField_packCw (op : Opcode) (alg : BitVec 4) (outlen : BitVec 7) (full : BitVec 1) :
    rsvField (packCw op alg outlen full) = 0#12 := by
  have h1 := (opcodeCode op).isLt
  have h2 := alg.isLt
  have h3 := outlen.isLt
  have h4 := full.isLt
  apply BitVec.eq_of_toNat_eq
  simp only [rsvField, BitVec.extractLsb'_toNat, packCw_toNat, Nat.shiftRight_eq_div_pow,
    BitVec.toNat_ofNat]
  omega

/-- A command word with RSV = 0 is assembled from its own fields. -/
theorem packCw_fields {cw : Word32} {op : Opcode} (hop : opcField cw = opcodeCode op)
    (hrsv : rsvField cw = 0#12) : packCw op (algField cw) (outlenField cw) (fullField cw) = cw := by
  have h0 := cw.isLt
  have h1 := congrArg BitVec.toNat hop
  have h2 := congrArg BitVec.toNat hrsv
  apply BitVec.eq_of_toNat_eq
  rw [packCw_toNat, ← h1]
  simp only [opcField, algField, outlenField, fullField, rsvField, BitVec.extractLsb'_toNat,
    Nat.shiftRight_eq_div_pow, BitVec.toNat_ofNat] at h2 ⊢
  omega

@[simp] theorem outLenOfFields_packCw (op : Opcode) (alg : BitVec 4) (l : OutLen) :
    outLenOfFields (packCw op alg (outlenOf l) (fullOf l)) = l := by
  cases l <;> simp [outLenOfFields, fullOf, outlenOf]

@[simp] theorem countArg_toNat {m : Bytes} (h : payloadFits m = true) : (countArg m).toNat = m.length := by
  simp only [payloadFits, decide_eq_true_eq] at h
  simp only [countArg, BitVec.toNat_ofNat]
  omega

/-! ### What decode answers -/

theorem decode_of_badLength {t : Transaction} (h : t.payload.length ≠ payloadLength t.cw t.arg) :
    decode t = .error .payloadLength := if_neg h

theorem decode_of_badOpcode {t : Transaction} (hl : t.payload.length = payloadLength t.cw t.arg)
    (h : opcodeOfCode (opcField t.cw) = none) : decode t = .error (.status .eopc) := by
  rw [decode, if_pos hl, h]

theorem decode_of_opcode {t : Transaction} {op : Opcode}
    (hl : t.payload.length = payloadLength t.cw t.arg) (h : opcodeOfCode (opcField t.cw) = some op) :
    decode t = if reservedNonzero op t.cw t.arg then .error (.status .ersv) else decodeOperands op t := by
  rw [decode, if_pos hl, h]

end Sys2Proof
end

