-- ==== Sys2Proof/Laws/Step.lean ====
section
/-! SUPPORT. What a command and a step can do, said once: every command answers, and a step is one of four
things. -/

namespace Sys2Proof.Machine

/-- The one form every meaning has: what it answers (`Effect.status`, `value`, `out`) and the state it would
leave (`after`). -/
structure Effect where
  status : Status
  value : Word64
  out : Bytes
  after : State

/-- The effect of each command, for citing: `exec_eq_complete` says that this is all a command does. -/
def effect (i : Instr) (s : State) : Effect :=
  match i with
  | .init a => ⟨.ok, 0, [], { s with ctx := initCtx a }⟩
  | .update m =>
    ⟨updateStatus s.ctx.phase s.ctx.alg s.ctx.count m.length, 0, [], { s with ctx := feed s.ctx m }⟩
  | .final l =>
    ⟨finalStatus s.ctx.phase s.ctx.alg l, 0,
      (finalizeDigest s.keccakSuffix s.ctx).take (outputLength s.ctx.alg l),
      { s with ctx := finalizeCtx s.keccakSuffix s.ctx }⟩
  | .rdreg r => ⟨.ok, regView s.ctx s.hm r, [], s⟩
  | .hmacInit a key =>
    ⟨keyStatus a key.length, 0, [], { s with hm := loadKey s.keccakSuffix a key }⟩
  | .hmacUpdate m =>
    ⟨updateStatus s.hm.phase s.hm.alg s.hm.inner.count m.length, 0, [],
      { s with hm := { s.hm with inner := feed s.hm.inner m } }⟩
  | .hmacFinal l =>
    ⟨finalStatus s.hm.phase s.hm.alg l, 0,
      (hmacOut s.keccakSuffix s.hm).take (outputLength s.hm.alg l),
      { s with hm := hmacFinalize s.keccakSuffix s.hm }⟩
  | .hmacReinit => ⟨reinitStatus s.hm.phase, 0, [], { s with hm := hmacRestore s.hm }⟩

theorem exec_eq_complete (i : Instr) (s : State) :
    exec i s
      = complete (effect i s).status (effect i s).value (effect i s).out (effect i s).after s := by
  cases i <;> rfl

/-- A command never stops the machine. -/
theorem exec_isNext (i : Instr) (s : State) : ∃ t, exec i s = .next t := by
  rw [exec_eq_complete]; exact complete_isNext ..

/-- Everything a command can do: succeed with its effect, or raise its status and change nothing. -/
theorem exec_cases {i : Instr} {s t : State} (h : exec i s = .next t) :
    ((effect i s).status = .ok ∧ t = succeed (effect i s).value (effect i s).out (effect i s).after) ∨
      ((effect i s).status ≠ .ok ∧ t = raise (effect i s).status s) := by
  rw [exec_eq_complete] at h; exact complete_cases h

@[simp] theorem effect_after_inputs (i : Instr) (s : State) : (effect i s).after.inputs = s.inputs := by
  cases i <;> rfl

@[simp] theorem effect_after_responses (i : Instr) (s : State) :
    (effect i s).after.responses = s.responses := by
  cases i <;> rfl

@[simp] theorem effect_after_keccakSuffix (i : Instr) (s : State) :
    (effect i s).after.keccakSuffix = s.keccakSuffix := by
  cases i <;> rfl

/-! ### One step -/

theorem step_idle {s : State} (h : s.inputs = []) : step s = .next s := by
  unfold step serve; rw [h]

theorem step_reset {s : State} {p : Option Transaction} {rest : List Input}
    (h : s.inputs = .reset p :: rest) : step s = .next (resetInstance { s with inputs := rest }) := by
  unfold step serve; rw [h]

theorem step_command {s : State} {t : Transaction} {rest : List Input}
    (h : s.inputs = .command t :: rest) : step s = transact exec t { s with inputs := rest } := by
  unfold step serve; rw [h]

/-- Everything a step that answers a next state can do: stay idle, take a reset, answer a word that decodes to
no command, or run the decoded command. -/
theorem step_cases {s u : State} (h : step s = .next u) :
    (s.inputs = [] ∧ u = s) ∨
    (∃ p rest, s.inputs = .reset p :: rest ∧ u = resetInstance { s with inputs := rest }) ∨
    (∃ t rest st, s.inputs = .command t :: rest ∧ decode t = .error (.status st) ∧
      u = raise st { s with inputs := rest }) ∨
    (∃ t rest i, s.inputs = .command t :: rest ∧ decode t = .ok i ∧
      exec i { s with inputs := rest } = .next u) := by
  cases hi : s.inputs with
  | nil => rw [step_idle hi] at h; injection h with h; exact .inl ⟨rfl, h.symm⟩
  | cons x rest =>
    cases x with
    | reset p => rw [step_reset hi] at h; injection h with h; exact .inr (.inl ⟨p, rest, rfl, h.symm⟩)
    | command t =>
      rw [step_command hi] at h
      unfold transact at h
      split at h
      · cases h
      · rename_i st hd
        injection h with h
        exact .inr (.inr (.inl ⟨t, rest, st, rfl, hd, h.symm⟩))
      · rename_i i hd
        exact .inr (.inr (.inr ⟨t, rest, i, rfl, hd, h⟩))

end Sys2Proof.Machine
end

