-- ==== Sys2Proof/Laws/Invariant.lean ====
section
/-! SUPPORT. The invariants of Safety.lean, primitive by primitive. -/

namespace Sys2Proof.Machine

/-! ### The state store -/

/-- R35(b) and R35(c) for a store of algorithm a. -/
structure StoreInv (a : Alg) (s : Vector Word64 25) : Prop where
  narrow : narrowFamily (familyOf a) = true → ∀ i : Fin 25, s[i].toNat < 2 ^ 32
  outside : ∀ i : Fin 25, viewSize (familyOf a) ≤ i.val → s[i] = 0x0#64

theorem storeInv_iv (a : Alg) : StoreInv a (ivStore a) := by
  constructor
  · cases a <;> decide +kernel
  · cases a <;> decide +kernel

theorem storeInv_processStore {a : Alg} (s : Vector Word64 25) (blk : Bytes) (h : StoreInv a s) :
    StoreInv a (processStore (familyOf a) s blk) := by
  obtain ⟨hn, ho⟩ := h
  constructor
  · intro hf
    have hs := hn hf
    generalize familyOf a = f at hf
    cases f with
    | sha2_32 => exact writeWords_zext_narrow hs _
    | rmd160 => exact writeWords_zext_narrow hs _
    | sha2_64 => cases hf
    | keccak => cases hf
  · intro i hi
    have hs := ho i hi
    generalize familyOf a = f at hi
    have hw : ∀ ws : List Word64, ws.length ≤ i.val → (writeWords s ws)[i] = 0x0#64 := by
      intro ws hl
      show (writeWords s ws)[i.val] = 0x0#64
      rw [writeWords_getElem _ _ _ i.isLt, getD_of_length_le hl]
      exact hs
    cases f with
    | sha2_32 => exact hw _ hi
    | sha2_64 => exact hw _ hi
    | rmd160 => exact hw _ hi
    | keccak => exact absurd hi (by simp [viewSize])

/-! ### Context records -/

theorem LiveContext.storeInv {a : Alg} {c : Context} (h : LiveContext a c) : StoreInv a c.store :=
  ⟨h.upperHalvesZero, h.outsideViewZero⟩

theorem Context.Inv.algSome {c : Context} (h : c.Inv) (hp : c.phase ≠ .empty) : ∃ a, c.alg = some a := by
  cases ha : c.alg with
  | none => exact absurd (h.algNoneIffEmpty.mp ha) hp
  | some a => exact ⟨a, rfl⟩

theorem reset_context_inv : Context.reset.Inv where
  algNoneIffEmpty := by decide
  emptyIsReset := fun _ => rfl
  live := fun a h => by cases h

/-- A context with an algorithm and a phase other than EMPTY needs only R35(b) to (f). -/
theorem inv_of_live {a : Alg} {c : Context} (ha : c.alg = some a) (hp : c.phase ≠ .empty)
    (hl : LiveContext a c) : c.Inv where
  algNoneIffEmpty := by rw [ha]; simp [hp]
  emptyIsReset := fun h => absurd h hp
  live := fun b hb => by rw [ha] at hb; cases hb; exact hl

theorem initCtx_live (a : Alg) : LiveContext a (initCtx a) where
  upperHalvesZero := (storeInv_iv a).narrow
  outsideViewZero := (storeInv_iv a).outside
  bufferNotFull := by have := blockSize_ge a; simp; omega
  countBounded := Nat.zero_le _
  absorbingBuflen := fun _ => by simp
  finalizedBuflen := fun h => by simp at h

theorem initCtx_inv (a : Alg) : (initCtx a).Inv := inv_of_live rfl (by simp) (initCtx_live a)

theorem feed_count_toNat {c : Context} {a : Alg} {m : Bytes} (hm : c.count.toNat + m.length ≤ maxLen a) :
    (feed c m).count.toNat = c.count.toNat + m.length := by
  have := maxLen_lt a
  rw [feed_count, absorb_count, BitVec.toNat_add, BitVec.toNat_ofNat]
  omega

theorem feed_live {c : Context} {a : Alg} {m : Bytes} (ha : c.alg = some a) (hp : c.phase = .absorbing)
    (hl : LiveContext a c) (hm : c.count.toNat + m.length ≤ maxLen a) : LiveContext a (feed c m) := by
  have hs : StoreInv a (feed c m).store :=
    absorb_store_induct ha (fun s blk => storeInv_processStore s blk) m hl.storeInv
  refine ⟨hs.narrow, hs.outside, ?_, ?_, ?_, ?_⟩
  · exact absorb_buflen_lt ha hl.bufferNotFull m
  · rw [feed_count_toNat hm]; exact hm
  · intro _
    rw [feed_count_toNat hm, feed_buflen, absorb_buflen_mod ha hl.bufferNotFull m, hl.absorbingBuflen hp,
      Nat.mod_add_mod]
  · intro hf
    rw [feed_phase, absorb_phase, hp] at hf
    cases hf

theorem finalizeCtx_live (k : KeccakSuffix) {c : Context} {a : Alg} (ha : c.alg = some a)
    (hl : LiveContext a c) : LiveContext a (finalizeCtx k c) := by
  have hge := blockSize_ge a
  have hs : StoreInv a (padCtx k a c).store :=
    padCtx_store_induct k ha hl.bufferNotFull (fun s blk => storeInv_processStore s blk) hl.storeInv
  have hb := padCtx_buflen k ha hl.bufferNotFull
  have hc : (finalizeCtx k c).count = c.count := finalizeCtx_count k c
  have hp : (finalizeCtx k c).phase = .finalized := finalizeCtx_phase k c
  rw [finalizeCtx_eq k ha] at hc hp ⊢
  refine ⟨hs.narrow, hs.outside, ?_, ?_, ?_, fun _ => hb⟩
  · show (padCtx k a c).buflen.toNat < blockSize a
    rw [hb]; simp; omega
  · rw [hc]; exact hl.countBounded
  · intro h; rw [hp] at h; cases h

/-- A context that may absorb m bytes keeps its invariants. -/
theorem feed_inv {c : Context} {a : Alg} {m : Bytes} (h : c.Inv) (ha : c.alg = some a)
    (hp : c.phase = .absorbing) (hm : c.count.toNat + m.length ≤ maxLen a) : (feed c m).Inv :=
  inv_of_live (by rw [feed_alg, absorb_alg, ha]) (by rw [feed_phase, absorb_phase, hp]; decide)
    (feed_live ha hp (h.live a ha) hm)

theorem finalizeCtx_inv (k : KeccakSuffix) {c : Context} {a : Alg} (h : c.Inv) (ha : c.alg = some a) :
    (finalizeCtx k c).Inv :=
  inv_of_live (by rw [finalizeCtx_alg, ha]) (by rw [finalizeCtx_phase]; decide)
    (finalizeCtx_live k ha (h.live a ha))

/-! ### The HMAC unit -/

theorem finalizeDigest_length (k : KeccakSuffix) {c : Context} {a : Alg} (ha : c.alg = some a) :
    (finalizeDigest k c).length = digestSize a := by
  rw [finalizeDigest_eq k ha, digest, List.length_take, serialise_length]
  cases a <;> decide

theorem hashFn_length (k : KeccakSuffix) (a : Alg) (m : Bytes) : (hashFn k a m).length = digestSize a :=
  finalizeDigest_length k (by simp)

/-- The normalised key has exactly BS bytes (R360). -/
theorem keyNorm_length (k : KeccakSuffix) (a : Alg) (key : Bytes) :
    (keyNorm k a key).length = blockSize a := by
  have hd : digestSize a ≤ blockSize a := by cases a <;> decide
  unfold keyNorm
  dsimp only
  split
  · rw [List.length_append, zeros_length, hashFn_length]; omega
  · rw [List.length_append, zeros_length]; omega

theorem padRegister_getElem (m : Bytes) (i : Nat) (h : i < 144) : (padRegister m)[i] = m.getD i 0x00#8 := by
  simp [padRegister]

/-- The leading bytes of a pad register are the pad itself. -/
theorem padRegister_take {m : Bytes} (h : m.length ≤ 144) : (padRegister m).toList.take m.length = m := by
  apply List.ext_getElem
  · simp [h]
  · intro i h1 h2
    rw [List.getElem_take, Vector.getElem_toList, padRegister_getElem _ _ (by omega)]
    simp [List.getD, h2]

theorem padTake_length {a : Alg} (v : Vector Byte 144) : (v.toList.take (blockSize a)).length = blockSize a := by
  have := blockSize_le a
  simp; omega

theorem fed_pad_live {a : Alg} (v : Vector Byte 144) :
    LiveContext a (feed (initCtx a) (v.toList.take (blockSize a))) := by
  have := two_blockSize_le_maxLen a
  refine feed_live rfl rfl (initCtx_live a) ?_
  rw [padTake_length]; simp; omega

theorem fed_pad_inv {a : Alg} (v : Vector Byte 144) :
    (feed (initCtx a) (v.toList.take (blockSize a))).Inv :=
  inv_of_live (by simp) (by simp) (fed_pad_live v)

theorem fed_pad_count {a : Alg} (v : Vector Byte 144) :
    (feed (initCtx a) (v.toList.take (blockSize a))).count.toNat = blockSize a := by
  have := two_blockSize_le_maxLen a
  rw [feed_count_toNat (a := a) (by rw [padTake_length]; simp; omega), padTake_length]
  simp

theorem loadKey_live (k : KeccakSuffix) (a : Alg) (key : Bytes) : LiveHmac a (loadKey k a key) where
  innerAlg := by simp [loadKey]
  outerAlg := by simp [loadKey]
  innerPhase := by simp [loadKey]
  outerPhase := by simp [loadKey]
  savedInner := rfl
  savedOuter := rfl
  outerUntouched := fun _ => rfl
  innerCount := le_of_eq (fed_pad_count _).symm
  ipadTailZero := by
    intro i hi
    show (padRegister _)[i.val] = _
    rw [padRegister_getElem _ _ i.isLt, getD_of_length_le (by rw [xorRep_length, keyNorm_length]; exact hi)]
  opadTailZero := by
    intro i hi
    show (padRegister _)[i.val] = _
    rw [padRegister_getElem _ _ i.isLt, getD_of_length_le (by rw [xorRep_length, keyNorm_length]; exact hi)]
  padsAgree := by
    intro i hi
    have hk : i.val < (keyNorm k a key).length := by rw [keyNorm_length]; exact hi
    show (padRegister _)[i.val] ^^^ _ = (padRegister _)[i.val] ^^^ _
    rw [padRegister_getElem _ _ i.isLt, padRegister_getElem _ _ i.isLt]
    simp [List.getD, xorRep, hk]

theorem loadKey_inv (k : KeccakSuffix) (a : Alg) (key : Bytes) : (loadKey k a key).Inv where
  inner := fed_pad_inv _
  outer := fed_pad_inv _
  sinner := fed_pad_inv _
  souter := fed_pad_inv _
  algNoneIffEmpty := by simp
  emptyIsReset := fun h => by simp at h
  live := fun b hb => by rw [loadKey_alg] at hb; cases hb; exact loadKey_live k a key

theorem reset_hmac_inv : HmacUnit.reset.Inv where
  inner := reset_context_inv
  outer := reset_context_inv
  sinner := reset_context_inv
  souter := reset_context_inv
  algNoneIffEmpty := by decide
  emptyIsReset := fun _ => rfl
  live := fun a h => by cases h

theorem HmacUnit.Inv.algSome {h : HmacUnit} (hi : h.Inv) (hp : h.phase ≠ .empty) : ∃ a, h.alg = some a := by
  cases ha : h.alg with
  | none => exact absurd (hi.algNoneIffEmpty.mp ha) hp
  | some a => exact ⟨a, rfl⟩

/-- HMAC_UPDATE's effect keeps the invariants. -/
theorem hmacUpdate_inv {h : HmacUnit} {a : Alg} {m : Bytes} (hi : h.Inv) (ha : h.alg = some a)
    (hp : h.phase = .absorbing) (hm : h.inner.count.toNat + m.length ≤ maxLen a) :
    ({ h with inner := feed h.inner m } : HmacUnit).Inv := by
  have hl := hi.live a ha
  have hip : h.inner.phase = .absorbing := by rw [hl.innerPhase, hp]
  refine ⟨feed_inv hi.inner hl.innerAlg hip hm, hi.outer, hi.sinner, hi.souter, hi.algNoneIffEmpty, ?_, ?_⟩
  · intro he; rw [hp] at he; cases he
  · intro b hb
    rw [ha] at hb; cases hb
    refine ⟨?_, hl.outerAlg, ?_, hl.outerPhase, hl.savedInner, hl.savedOuter, hl.outerUntouched, ?_,
      hl.ipadTailZero, hl.opadTailZero, hl.padsAgree⟩
    · simp [hl.innerAlg]
    · simp [hl.innerPhase]
    · show blockSize a ≤ (feed h.inner m).count.toNat
      rw [feed_count_toNat hm]
      exact le_trans hl.innerCount (Nat.le_add_right _ _)

/-- In an absorbing unit the outer counter is BS (R370). -/
theorem outer_count {h : HmacUnit} {a : Alg} (hl : LiveHmac a h) (hp : h.phase = .absorbing) :
    h.outer.count.toNat = blockSize a := by
  rw [hl.outerUntouched hp, hl.savedOuter, fed_pad_count]

/-- HMAC_FINAL's effect keeps the invariants. -/
theorem hmacFinalize_inv (k : KeccakSuffix) {h : HmacUnit} {a : Alg} (hi : h.Inv) (ha : h.alg = some a)
    (hp : h.phase = .absorbing) : (hmacFinalize k h).Inv := by
  have hl := hi.live a ha
  have hd : digestSize a ≤ blockSize a := by cases a <;> decide
  have h2 := two_blockSize_le_maxLen a
  have hop : h.outer.phase = .absorbing := by rw [hl.outerPhase, hp]
  have hfed : (outerFed k h).Inv :=
    feed_inv hi.outer hl.outerAlg hop (by
      rw [outer_count hl hp, finalizeDigest_length k hl.innerAlg]; omega)
  have hfa : (outerFed k h).alg = some a := by simp [outerFed, hl.outerAlg]
  refine ⟨finalizeCtx_inv k hi.inner hl.innerAlg, finalizeCtx_inv k hfed hfa, hi.sinner, hi.souter, ?_, ?_, ?_⟩
  · simp [ha]
  · intro he; simp at he
  · intro b hb
    rw [hmacFinalize_alg, ha] at hb; cases hb
    refine ⟨?_, ?_, ?_, ?_, hl.savedInner, hl.savedOuter, ?_, ?_, hl.ipadTailZero, hl.opadTailZero,
      hl.padsAgree⟩
    · simp [hl.innerAlg]
    · simp [hfa]
    · simp
    · simp
    · intro he; simp at he
    · simpa using hl.innerCount

/-- HMAC_REINIT's effect keeps the invariants. -/
theorem hmacRestore_inv {h : HmacUnit} {a : Alg} (hi : h.Inv) (ha : h.alg = some a) :
    (hmacRestore h).Inv := by
  have hl := hi.live a ha
  refine ⟨hi.sinner, hi.souter, hi.sinner, hi.souter, by simp [ha], fun he => by simp at he, ?_⟩
  intro b hb
  rw [hmacRestore_alg, ha] at hb; cases hb
  refine ⟨?_, ?_, ?_, ?_, hl.savedInner, hl.savedOuter, fun _ => rfl, ?_, hl.ipadTailZero,
    hl.opadTailZero, hl.padsAgree⟩
  · simp [hl.savedInner]
  · simp [hl.savedOuter]
  · simp [hl.savedInner]
  · simp [hl.savedOuter]
  · simp [hl.savedInner]; exact le_of_eq (fed_pad_count _).symm

end Sys2Proof.Machine
end

