-- ==== Sys2Proof/Laws/PerInstr.lean ====
section
/-! SUPPORT. Statements about every command as syntax, one lemma per constructor.

RowMatch: the command word of a command lies in its own row of spec/opcode_table.json: masked with the row's
mask it is the row's match. -/

namespace Sys2Proof.Laws.RowMatch

/-- The row's "mask". -/
def rowMask (i : Instr) : Word32 :=
  match i with
  | .init _ => 0xFFFFF0FF#32
  | .update _ => 0xFFFFFFFF#32
  | .final _ => 0xFFF00FFF#32
  | .rdreg _ => 0xFFFFFFFF#32
  | .hmacInit _ _ => 0xFFFFF0FF#32
  | .hmacUpdate _ => 0xFFFFFFFF#32
  | .hmacFinal _ => 0xFFF00FFF#32
  | .hmacReinit => 0xFFFFFFFF#32

/-- The row's "match". -/
def rowMatch (i : Instr) : Word32 :=
  match i with
  | .init _ => 0x00000001#32
  | .update _ => 0x00000002#32
  | .final _ => 0x00000003#32
  | .rdreg _ => 0x00000004#32
  | .hmacInit _ _ => 0x00000011#32
  | .hmacUpdate _ => 0x00000012#32
  | .hmacFinal _ => 0x00000013#32
  | .hmacReinit => 0x00000014#32

def Statement (i : Instr) : Prop := (encode i).cw &&& rowMask i = rowMatch i

theorem init (alg : Alg) : Statement (.init alg) := by unfold Statement; cases alg <;> decide

theorem update (payload : Bytes) : Statement (.update payload) := by
  show packCw .update 0 0 0 &&& 0xFFFFFFFF#32 = 0x00000002#32; decide

theorem final (len : OutLen) : Statement (.final len) := by
  unfold Statement
  cases len with
  | full => decide
  | bytes n => revert n; decide +kernel

theorem rdreg (reg : Reg) : Statement (.rdreg reg) := by
  show packCw .rdreg 0 0 0 &&& 0xFFFFFFFF#32 = 0x00000004#32; decide

theorem hmacInit (alg : Alg) (key : Bytes) : Statement (.hmacInit alg key) := by
  show packCw .hmacInit (algCode alg) 0 0 &&& 0xFFFFF0FF#32 = 0x00000011#32
  cases alg <;> decide

theorem hmacUpdate (payload : Bytes) : Statement (.hmacUpdate payload) := by
  show packCw .hmacUpdate 0 0 0 &&& 0xFFFFFFFF#32 = 0x00000012#32; decide

theorem hmacFinal (len : OutLen) : Statement (.hmacFinal len) := by
  unfold Statement
  cases len with
  | full => decide
  | bytes n => revert n; decide +kernel

theorem hmacReinit : Statement .hmacReinit := by unfold Statement; decide

end Sys2Proof.Laws.RowMatch
end

