-- ==== Sys2Proof/Tests/Slice0.lean ====
section
/-! SUPPORT. Tests: words and values written out from the spec, and for every obligation with hypotheses a
concrete state and operands that meet them all. Values are those of 95_test_vectors.md unless a comment names
another file. -/

namespace Sys2Proof.Tests

open Sys2Proof.Machine Sys2Proof.Claims

/-! ### Small states -/

/-- Right after INIT a from reset. -/
def hashing (a : Alg) : State := { State.reset with ctx := initCtx a }

/-- The same after UPDATE m. -/
def fed (a : Alg) (m : Bytes) : State := { State.reset with ctx := feed (initCtx a) m }

/-- A context of algorithm a whose counter is n and whose buffer length follows it (section 7.3). -/
def counted (a : Alg) (n : Nat) : State :=
  { State.reset with
    ctx := { initCtx a with count := BitVec.ofNat 64 n, buflen := BitVec.ofNat 8 (n % blockSize a) } }

/-- Right after HMAC_INIT a, key from reset. -/
def keyed (a : Alg) (key : Bytes) : State := { State.reset with hm := loadKey .sha3 a key }

/-- The state with one input on the channel. -/
def offered (x : Input) (s : State) : State := { s with inputs := [x] }

/-- The last response of a step that answers a next state. -/
def answer (o : Host.Outcome State Fault Refusal) : Option Response :=
  match o with
  | .next s => s.responses.getLast?
  | .fault _ | .refused _ => none

/-- What RDREG r would read in the next state. -/
def reads (r : Reg) (o : Host.Outcome State Fault Refusal) : Option Word64 :=
  match o with
  | .next s => some (regView s.ctx s.hm r)
  | .fault _ | .refused _ => none

theorem hashing_inv (a : Alg) : (hashing a).Inv := ⟨initCtx_inv a, reset_hmac_inv⟩

theorem keyed_inv (a : Alg) (key : Bytes) : (keyed a key).Inv := ⟨reset_context_inv, loadKey_inv _ a key⟩

/-! ### WellFormed refuses a payload that does not fit ARG (20_memory.md R71) -/

theorem test_wf_refuses_update : (Instr.update (List.replicate (2 ^ 64) 0x00#8)).wf = false := by
  simp only [Instr.wf, payloadFits, List.length_replicate, Nat.lt_irrefl, decide_false]

theorem test_wf_refuses_hmacInit : (Instr.hmacInit .sha256 (List.replicate (2 ^ 64) 0x00#8)).wf = false := by
  simp only [Instr.wf, payloadFits, List.length_replicate, Nat.lt_irrefl, decide_false]

theorem test_wf_refuses_hmacUpdate : (Instr.hmacUpdate (List.replicate (2 ^ 64) 0x00#8)).wf = false := by
  simp only [Instr.wf, payloadFits, List.length_replicate, Nat.lt_irrefl, decide_false]

/-! ### Decoding: command words bit by bit, RSV FULL OUTLEN ALG OPC (30_encoding.md R101, R104, R108) -/

theorem test_decode_init_codes :
    decode ⟨0b000000000000_0_0000000_0001_00000001#32, 0, []⟩ = .ok (.init .sha224) ∧
    decode ⟨0b000000000000_0_0000000_0010_00000001#32, 0, []⟩ = .ok (.init .sha256) ∧
    decode ⟨0b000000000000_0_0000000_0011_00000001#32, 0, []⟩ = .ok (.init .sha384) ∧
    decode ⟨0b000000000000_0_0000000_0100_00000001#32, 0, []⟩ = .ok (.init .sha512) ∧
    decode ⟨0b000000000000_0_0000000_0101_00000001#32, 0, []⟩ = .ok (.init .sha3_224) ∧
    decode ⟨0b000000000000_0_0000000_0110_00000001#32, 0, []⟩ = .ok (.init .sha3_256) ∧
    decode ⟨0b000000000000_0_0000000_0111_00000001#32, 0, []⟩ = .ok (.init .sha3_384) ∧
    decode ⟨0b000000000000_0_0000000_1000_00000001#32, 0, []⟩ = .ok (.init .sha3_512) ∧
    decode ⟨0b000000000000_0_0000000_1001_00000001#32, 0, []⟩ = .ok (.init .ripemd160) := by decide

theorem test_decode_update :
    decode ⟨0b000000000000_0_0000000_0000_00000010#32, 2, [0x68, 0x69]⟩ = .ok (.update [0x68, 0x69]) := by
  decide

theorem test_decode_final :
    decode ⟨0b000000000000_1_0000000_0000_00000011#32, 0, []⟩ = .ok (.final .full) ∧
    decode ⟨0b000000000000_0_1111111_0000_00000011#32, 0, []⟩ = .ok (.final (.bytes 127)) := by decide

theorem test_decode_rdreg :
    decode ⟨0b000000000000_0_0000000_0000_00000100#32, 0x02, []⟩ = .ok (.rdreg .hmacInfo) ∧
    decode ⟨0b000000000000_0_0000000_0000_00000100#32, 0x28, []⟩ = .ok (.rdreg (.ctxS 24)) := by decide

theorem test_decode_hmacInit :
    decode ⟨0b000000000000_0_0000000_1001_00010001#32, 1, [0x6b]⟩ = .ok (.hmacInit .ripemd160 [0x6b]) := by
  decide

theorem test_decode_hmacUpdate :
    decode ⟨0b000000000000_0_0000000_0000_00010010#32, 0, []⟩ = .ok (.hmacUpdate []) := by decide

theorem test_decode_hmacFinal :
    decode ⟨0b000000000000_1_0000000_0000_00010011#32, 0, []⟩ = .ok (.hmacFinal .full) ∧
    decode ⟨0b000000000000_0_0000001_0000_00010011#32, 0, []⟩ = .ok (.hmacFinal (.bytes 1)) := by decide

theorem test_decode_hmacReinit :
    decode ⟨0b000000000000_0_0000000_0000_00010100#32, 0, []⟩ = .ok .hmacReinit := by decide

/-- The examples of 60_exceptions.md R411 to R415. -/
theorem test_decode_rejects_by_name :
    decode ⟨0x00000000#32, 0, []⟩ = .error (.status .eopc) ∧
    decode ⟨0x00000202#32, 0, []⟩ = .error (.status .ersv) ∧
    decode ⟨0x00100003#32, 0, []⟩ = .error (.status .ersv) ∧
    decode ⟨0x00000A01#32, 0, []⟩ = .error (.status .ealg) ∧
    decode ⟨0x00000004#32, 0x29, []⟩ = .error (.status .ereg) ∧
    decode ⟨0x00000002#32, 2, [0x61]⟩ = .error .payloadLength := by decide

/-- A table word: CW of INIT sha256 placed after reset is what the next step runs. -/
theorem test_withFetchWord :
    reads .ctxInfo (step (State.reset.withFetchWord 32 0x00000201)) = some 0x20400012#64 := by decide

/-! ### Primitives (sections 2, 3 and 5.1) -/

theorem test_rotations :
    rotr 0x12345678#32 8 = 0x78123456#32 ∧ rotr 0x12345678#32 32 = 0x12345678#32 ∧
    rotl 0x0123456789abcdef#64 44 = 0xbcdef0123456789a#64 ∧ shr 0x80000000#32 3 = 0x10000000#32 := by decide

theorem test_byte_orders :
    beWord 32 [0x61, 0x62, 0x63, 0x80] = 0x61626380#32 ∧
    leWord 64 [1, 2, 3, 4, 5, 6, 7, 8] = 0x0807060504030201#64 ∧
    beBytes 0xe3b0c442#32 = [0xe3, 0xb0, 0xc4, 0x42] ∧
    leBytes 0x67452301#32 = [0x01, 0x23, 0x45, 0x67] := by decide

theorem test_sha2_functions :
    ch 0x6a09e667#32 0xbb67ae85#32 0x3c6ef372#32 = 0x3e67b715#32 ∧
    maj 0x6a09e667#32 0xbb67ae85#32 0x3c6ef372#32 = 0x3a6fe667#32 ∧
    bigSigma0_256 0x6a09e667#32 = 0xce20b47e#32 ∧ bigSigma1_256 0x510e527f#32 = 0x3587272b#32 ∧
    smallSigma0_256 1#32 = 0x02004000#32 ∧ smallSigma1_256 1#32 = 0x0000a000#32 ∧
    bigSigma0_512 0x6a09e667f3bcc908#64 = 0x08c4db56aac80c2a#64 ∧
    bigSigma1_512 0x510e527fade682d1#64 = 0x9427e33bb5c9dbca#64 ∧
    smallSigma0_512 1#64 = 0x8100000000000000#64 ∧ smallSigma1_512 1#64 = 0x0000200000000008#64 := by
  decide +kernel

/-- Words 16, 62 and 63 of the schedule of the padded "abc" block. -/
theorem test_schedule_abc :
    let ws := schedule variant256 ([0x61, 0x62, 0x63, 0x80] ++ zeros 59 ++ [0x18])
    [ws.getD 16 0, ws.getD 62 0, ws.getD 63 0] = [0x61626380#32, 0xeeaba2cc#32, 0x12b1edeb#32] := by
  decide +kernel

/-- Round 0 of SHA-256 on "abc". -/
theorem test_round_0 :
    sha2Round variant256 iv256 (0x428a2f98#32, 0x61626380#32)
      = ⟨0x5d6aebcd, 0x6a09e667, 0xbb67ae85, 0x3c6ef372, 0xfa2a4622, 0x510e527f, 0x9b05688c, 0x1f83d9ab⟩ := by
  decide +kernel

/-- After one Keccak round from S[0] = 1: lanes 0 to 4. -/
theorem test_keccak_round_0 :
    (keccakRound (vecOf fun i => if i.val = 0 then 1#64 else 0#64) 1#64).toList.take 5
      = [0x0#64, 0x0000100000000000#64, 0x8000#64, 0x1#64, 0x0000100000008000#64] := by decide +kernel

theorem test_rmd_functions :
    [0, 16, 32, 48, 64].map (fun j => rmdF j 0xefcdab89#32 0x98badcfe#32 0x10325476#32)
      = [0x67452301#32, 0x98badcfe#32, 0xffffffff#32, 0x88888888#32, 0x10325476#32] := by decide

/-- RIPEMD-160, left line, step 0 on the padded empty message (43_ripemd160.md R284). -/
theorem test_rmd_step_0 :
    rmdLeftStep (rmdWords (0x80 :: zeros 63)) ivRmd 0
      = ⟨0xc3d2e1f0, 0x1606f864, 0xefcdab89, 0xeb73fa62, 0x10325476⟩ := by decide +kernel

/-! ### One step of each command -/

/-- CTX_INFO after INIT (section 4.2). -/
theorem test_init_info :
    reads .ctxInfo (exec (.init .sha3_224) State.reset) = some 0x1c900015#64 ∧
    reads .ctxInfo (exec (.init .ripemd160) State.reset) = some 0x14400019#64 := by decide

theorem test_init_ripemd_word_4 :
    reads (.ctxS 4) (exec (.init .ripemd160) State.reset) = some 0x00000000c3d2e1f0#64 := by decide

/-- Section 7.1: ten bytes into a SHA-256 context. -/
theorem test_update_ten_bytes :
    let o := exec (.update [0x01, 0x02, 0x03, 0x04, 0x05, 0x06, 0x07, 0x08, 0x09, 0x0a]) (hashing .sha256)
    reads .ctxInfo o = some 0x20400a12#64 ∧ reads .ctxCount o = some 10#64 ∧
      reads (.ctxBufw 0) o = some 0x0807060504030201#64 ∧ reads (.ctxBufw 1) o = some 0x0a09#64 := by
  decide +kernel

/-- Section 7.3: at MAXLEN − 1, two bytes are too many. -/
theorem test_update_overflow :
    answer (exec (.update [0x61, 0x61]) (counted .sha256 0x1ffffffffffffffe)) = some ⟨.eovf, 0, []⟩ := by decide

/-- SHA-256 of the empty message (E1). -/
theorem test_final_sha256 :
    answer (exec (.final .full) (hashing .sha256)) = some ⟨.ok, 0,
    [0xe3, 0xb0, 0xc4, 0x42, 0x98, 0xfc, 0x1c, 0x14, 0x9a, 0xfb, 0xf4, 0xc8, 0x99, 0x6f, 0xb9, 0x24,
     0x27, 0xae, 0x41, 0xe4, 0x64, 0x9b, 0x93, 0x4c, 0xa4, 0x95, 0x99, 0x1b, 0x78, 0x52, 0xb8, 0x55]⟩ := by
  decide +kernel

/-- FINAL 33 on a SHA-256 context (section 4.4). -/
theorem test_final_too_long :
    answer (exec (.final (.bytes 33)) (fed .sha256 [0x61, 0x62, 0x63])) = some ⟨.elen, 0, []⟩ := by decide

/-- The other three families: SHA-512 of "abc", SHA3-256 of "", RIPEMD-160 of "". -/
theorem test_final_sha512_abc :
    answer (exec (.final (.bytes 8)) (fed .sha512 [0x61, 0x62, 0x63])) = some ⟨.ok, 0,
    [0xdd, 0xaf, 0x35, 0xa1, 0x93, 0x61, 0x7a, 0xba]⟩ := by
  decide +kernel

theorem test_final_sha3 :
    answer (exec (.final (.bytes 8)) (hashing .sha3_256)) = some ⟨.ok, 0,
    [0xa7, 0xff, 0xc6, 0xf8, 0xbf, 0x1e, 0xd7, 0x66]⟩ := by
  decide +kernel

theorem test_final_ripemd160 :
    answer (exec (.final .full) (hashing .ripemd160)) = some ⟨.ok, 0,
    [0x9c, 0x11, 0x85, 0xa5, 0xc5, 0xe9, 0xfc, 0x54, 0x61, 0x28, 0x08, 0x97, 0x7e, 0xe8, 0xf5, 0x48,
     0xb2, 0x25, 0x8d, 0x31]⟩ := by
  decide +kernel

/-- RDREG answers in the response's value and changes nothing (section 7.4; 44_context.md R343). -/
theorem test_rdreg_last_register :
    exec (.rdreg (.ctxBufw 17)) State.reset = .next { State.reset with responses := [⟨.ok, 0, []⟩] } := rfl

theorem test_rdreg_count :
    answer (exec (.rdreg .ctxCount) (counted .sha512 0xfffffffffffffffe)) = some ⟨.ok, 0xfffffffffffffffe#64, []⟩ := by
  decide

/-- HMAC_INFO after HMAC_INIT (45_hmac.md R370), and byte 0 of ipad: 'J' ^ 0x36. -/
theorem test_hmacInit_jefe :
    let o := exec (.hmacInit .sha256 [0x4a, 0x65, 0x66, 0x65]) State.reset
    reads .hmacInfo o = some 0x12#64 ∧ answer o = some ⟨.ok, 0, []⟩ := by decide

theorem test_hmacInit_ipad :
    ((loadKey .sha3 .sha256 [0x4a, 0x65, 0x66, 0x65]).ipad[0], (loadKey .sha3 .sha256 [0x4a, 0x65, 0x66, 0x65]).opad[4])
      = (0x7c#8, 0x5c#8) := by decide +kernel

theorem test_hmacUpdate_before_key :
    answer (exec (.hmacUpdate [0x61]) State.reset) = some ⟨.estate, 0, []⟩ := by decide

/-- HMAC-SHA256, empty key, empty message: the leading 8 bytes (section 8.1, case EMPTY). -/
theorem test_hmacFinal_empty :
    answer (exec (.hmacFinal (.bytes 8)) (keyed .sha256 [])) = some ⟨.ok, 0,
    [0xb6, 0x13, 0x67, 0x9a, 0x08, 0x14, 0xd9, 0xec]⟩ := by
  decide +kernel

theorem test_hmacFinal_before_key :
    answer (exec (.hmacFinal .full) State.reset) = some ⟨.estate, 0, []⟩ := by decide

theorem test_hmacReinit_before_key :
    answer (exec .hmacReinit State.reset) = some ⟨.estate, 0, []⟩ := by decide

theorem test_hmacReinit_after_key :
    answer (exec .hmacReinit (keyed .sha256 [])) = some ⟨.ok, 0, []⟩ := by decide

/-- The pseudo-command NOP is RDREG CTX_INFO (30_encoding.md R116). -/
theorem test_nop : encode pseudoNop = ⟨0x00000004#32, 0, []⟩ := by decide

/-! ### Witnesses: for each obligation with hypotheses, a state and operands that meet them -/

theorem witness_DecodeReadsBackEncode : (Instr.hmacInit .sha512 [0x4a]).wf = true := by decide

theorem witness_EncodeReadsBackDecode : decode ⟨0x00080013#32, 0, []⟩ = .ok (.hmacFinal .full) := by decide

/-- EOPC: an assigned and an unassigned opcode, at the edges of the reserved ranges. -/
theorem witness_EopcExactlyForUnassignedOpcodes :
    (payloadAsRequired ⟨0x00000005#32, 0, []⟩ ∧ opc ⟨0x00000005#32, 0, []⟩ ∉ assigned) ∧
    (payloadAsRequired ⟨0x00000010#32, 0, []⟩ ∧ opc ⟨0x00000010#32, 0, []⟩ ∉ assigned) ∧
    (payloadAsRequired ⟨0x00000004#32, 0, []⟩ ∧ opc ⟨0x00000004#32, 0, []⟩ ∈ assigned) := by
  unfold payloadAsRequired; decide

/-- ERSV: each of the five cases alone, and a command with none. -/
theorem witness_ErsvExactlyForReservedFields :
    (∀ t ∈ ([⟨0x00100004#32, 0, []⟩, ⟨0x00000102#32, 0, []⟩, ⟨0x00001004#32, 0, []⟩, ⟨0x00080004#32, 0, []⟩,
        ⟨0x00000014#32, 1, []⟩, ⟨0x00081003#32, 0, []⟩] : List Transaction),
      payloadAsRequired t ∧ opc t ∈ assigned ∧ fieldsReserved t) ∧
    payloadAsRequired ⟨0x00080003#32, 0, []⟩ ∧ ¬ fieldsReserved ⟨0x00080003#32, 0, []⟩ := by
  unfold payloadAsRequired fieldsReserved; decide

/-- EALG: codes 0, 9 and 10. -/
theorem witness_EalgExactlyForReservedCodes :
    (∀ t ∈ ([⟨0x00000001#32, 0, []⟩, ⟨0x00000A11#32, 1, [0x61]⟩] : List Transaction),
      payloadAsRequired t ∧ ¬ fieldsReserved t ∧ algNum t ∉ [1, 2, 3, 4, 5, 6, 7, 8, 9]) ∧
    payloadAsRequired ⟨0x00000901#32, 0, []⟩ ∧ algNum ⟨0x00000901#32, 0, []⟩ ∈ [1, 2, 3, 4, 5, 6, 7, 8, 9] := by
  unfold payloadAsRequired fieldsReserved; decide

/-- EREG: the edges of the mapped ranges. -/
theorem witness_EregExactlyForUnmappedNumbers :
    (payloadAsRequired ⟨0x4#32, 0x29, []⟩ ∧ ¬ fieldsReserved ⟨0x4#32, 0x29, []⟩) ∧
    (payloadAsRequired ⟨0x4#32, 0x28, []⟩ ∧ ¬ fieldsReserved ⟨0x4#32, 0x28, []⟩) ∧
    (∀ n ∈ [0x03, 0x0f, 0x29, 0x2f, 0x42], ¬ mappedReg n) ∧
    (∀ n ∈ [0x00, 0x01, 0x02, 0x10, 0x28, 0x30, 0x41], mappedReg n) := by
  unfold payloadAsRequired fieldsReserved mappedReg
  exact ⟨by decide, by decide, by decide, by decide⟩

theorem witness_StepRunsTheDecodedCommand :
    (offered (.command ⟨0x00000201#32, 0, []⟩) State.reset).inputs = .command ⟨0x00000201#32, 0, []⟩ :: [] ∧
    decode ⟨0x00000201#32, 0, []⟩ = .ok (.init .sha256) := by decide

theorem witness_StepAnswersADecodeError :
    (offered (.command ⟨0#32, 0, []⟩) State.reset).inputs = .command ⟨0#32, 0, []⟩ :: [] ∧
    decode ⟨0#32, 0, []⟩ = .error (.status .eopc) := by decide

/-- Both sides: a short payload is refused, a right one is not. -/
theorem witness_StepStopsOnlyOnPayloadMismatch :
    ¬ payloadAsRequired ⟨0x00000002#32, 1, []⟩ ∧ payloadAsRequired ⟨0x00000002#32, 1, [0x61]⟩ ∧
    ¬ payloadAsRequired ⟨0x00000000#32, 0, [0x61]⟩ := by unfold payloadAsRequired; decide

theorem witness_IdleStepHoldsTheState : State.reset.inputs = [] := rfl

theorem witness_ResetGivesTheResetState :
    (offered (.reset (some ⟨0x00000002#32, 5, [0x61]⟩)) (hashing .sha256)).inputs
      = .reset (some ⟨0x00000002#32, 5, [0x61]⟩) :: [] := rfl

theorem witness_StepRunsAPlacedTableWord :
    decodeTableWord 32 0x00080003 = some (.final .full) ∧
    decodeTableWord 104 (0x61 * 2 ^ 96 + 1 * 2 ^ 32 + 0x02) = some (.update [0x61]) := by decide

/-- At MAXLEN itself (the counter may reach it), with no byte and with one. -/
theorem witness_UpdateAbsorbsAndCounts :
    ((counted .sha256 0x1ffffffffffffffe).ctx.alg = some .sha256 ∧
      (counted .sha256 0x1ffffffffffffffe).ctx.phase = .absorbing ∧
      (counted .sha256 0x1ffffffffffffffe).ctx.count.toNat + [0x61#8].length ≤ maxLen .sha256) ∧
    (counted .sha3_256 0xffffffffffffffff).ctx.count.toNat + ([] : Bytes).length ≤ maxLen .sha3_256 := by
  decide

/-- An empty and an almost full buffer. -/
theorem witness_AbsorbIsBlockwise :
    ((initCtx .sha3_512).alg = some .sha3_512 ∧ (initCtx .sha3_512).buflen.toNat < blockSize .sha3_512) ∧
    (counted .sha3_512 71).ctx.buflen.toNat = blockSize .sha3_512 - 1 := by decide

theorem witness_ChunkingInvariance :
    (hashing .sha256).ctx.alg = some .sha256 ∧ (hashing .sha256).ctx.phase = .absorbing ∧
    (hashing .sha256).ctx.count.toNat + ([[0x61#8], [], [0x62, 0x63]] : List Bytes).flatten.length
      ≤ maxLen .sha256 := by decide

/-- L = DS and FULL. -/
theorem witness_FinalReturnsTheDigest :
    (hashing .sha224).ctx.alg = some .sha224 ∧ (hashing .sha224).ctx.phase = .absorbing ∧
    outputLength (some .sha224) (.bytes 28) ≤ digestSize .sha224 ∧
    outputLength (some .sha224) .full ≤ digestSize .sha224 := by decide

theorem witness_FinalizeLeavesTheContext :
    (initCtx .ripemd160).alg = some .ripemd160 ∧ (initCtx .ripemd160).buflen.toNat < blockSize .ripemd160 := by
  decide

/-- b = BS − LF − 1 and BS − LF (one and two blocks), and b = BS − 1 for Keccak. -/
theorem witness_FinalizeProcessesThePadding :
    (∀ n ∈ [55, 56], (counted .sha256 n).ctx.alg = some .sha256 ∧
      (counted .sha256 n).ctx.buflen.toNat = n ∧ n < blockSize .sha256) ∧
    (padBlocks .sha256 55, padBlocks .sha256 56) = (1, 2) ∧
    (counted .sha3_256 135).ctx.buflen.toNat + 1 = blockSize .sha3_256 := by decide

theorem witness_LengthFieldIsExact : (0x1fffffffffffffff#64).toNat ≤ maxLen .sha256 := by decide

theorem witness_OneShotHashIsTheWholeMessageHash :
    State.reset.inputs = [] ∧ [0x61#8].length ≤ maxLen .sha256 := by decide

/-- Keys of BS and BS + 1 bytes take the two branches. -/
theorem witness_KeyNormalisation :
    (zeros 64).length ≤ blockSize .sha256 ∧ blockSize .sha256 < (zeros 65).length := by decide

theorem witness_HmacInitLoadsTheKey :
    keyTaken .sha256 [] ∧ keyTaken .sha256 (zeros 64) ∧ keyTaken .sha256 (zeros 65) := by
  unfold keyTaken; decide

theorem witness_HmacInitProcessesOneBlockEach : keyTaken .sha3_224 [0x4a, 0x65, 0x66, 0x65] := by
  unfold keyTaken; decide

theorem witness_HmacUpdateFeedsTheInnerContext :
    (keyed .sha256 [0x4a]).hm.alg = some .sha256 ∧ (keyed .sha256 [0x4a]).hm.phase = .absorbing ∧
    (keyed .sha256 [0x4a]).hm.inner.count.toNat + [0x61#8].length ≤ maxLen .sha256 := by
  refine ⟨rfl, rfl, ?_⟩
  have h : (keyed .sha256 [0x4a]).hm.inner.count.toNat = 64 := fed_pad_count (a := .sha256) _
  rw [h]; decide

theorem witness_HmacFinalReturnsTheMac :
    (keyed .sha3_384 [0x4a]).hm.alg = some .sha3_384 ∧ (keyed .sha3_384 [0x4a]).hm.phase = .absorbing ∧
    outputLength (some .sha3_384) (.bytes 48) ≤ digestSize .sha3_384 := ⟨rfl, rfl, by decide⟩

theorem witness_HmacFinalProcessesOneOuterBlock :
    (keyed .sha512 [0x4a]).Inv ∧ (keyed .sha512 [0x4a]).hm.alg = some .sha512 ∧
    (keyed .sha512 [0x4a]).hm.phase = .absorbing ∧
    outputLength (some .sha512) .full ≤ digestSize .sha512 := ⟨keyed_inv _ _, rfl, rfl, by decide⟩

theorem witness_HmacReinitRestoresTheBaseline : (keyed .sha256 [0x4a]).hm.phase ≠ .empty := by
  show Phase.absorbing ≠ .empty; decide

theorem witness_HmacIsTheNestedHash :
    keyTaken .sha224 (zeros 100) ∧ blockSize .sha224 + [0x61#8].length ≤ maxLen .sha224 := by
  unfold keyTaken; decide

theorem witness_ReinitEquivalence :
    keyTaken .sha256 [0x4a] ∧ blockSize .sha256 + [0x61#8].length ≤ maxLen .sha256 ∧
    ∀ i ∈ [Instr.hmacUpdate [0x62], .hmacFinal .full, .hmacReinit, .init .sha512], loadsKey i = false := by
  unfold keyTaken; decide

/-- One state in which both units absorb, at L = DS and L = 0. -/
theorem witness_TruncationTakesTheLeadingBytes :
    (20#7).toNat ≤ digestSize .ripemd160 ∧ (0#7).toNat ≤ digestSize .ripemd160 ∧
    ({ hashing .ripemd160 with hm := loadKey .sha3 .ripemd160 [] } : State).ctx.alg = some .ripemd160 ∧
    ({ hashing .ripemd160 with hm := loadKey .sha3 .ripemd160 [] } : State).ctx.phase = .absorbing ∧
    ({ hashing .ripemd160 with hm := loadKey .sha3 .ripemd160 [] } : State).hm.alg = some .ripemd160 ∧
    ({ hashing .ripemd160 with hm := loadKey .sha3 .ripemd160 [] } : State).hm.phase = .absorbing :=
  ⟨by decide, by decide, rfl, rfl, rfl, rfl⟩

/-- FINAL 0 finalizes, and so does HMAC_FINAL 0; INIT is repeatable. -/
theorem witness_RepeatedCommands :
    repeatable (.init .sha256) = true ∧ (∃ t, exec (.init .sha256) State.reset = .next t) ∧
    (hashing .sha256).ctx.phase = .absorbing ∧
    (∃ t, exec (.final (.bytes 0)) (hashing .sha256) = .next t ∧ t.ctx.phase = .finalized) ∧
    (keyed .sha256 []).hm.phase = .absorbing ∧
    (∃ t, exec (.hmacFinal (.bytes 0)) (keyed .sha256 []) = .next t ∧ t.hm.phase = .finalized) ∧
    (hashing .sha256).ctx.alg = some .sha256 ∧
    (hashing .sha256).ctx.count.toNat + ([0x61#8] ++ [0x61#8]).length ≤ maxLen .sha256 ∧
    (keyed .sha256 []).hm.alg = some .sha256 ∧
    (keyed .sha256 []).hm.inner.count.toNat + ([0x61#8] ++ [0x61#8]).length ≤ maxLen .sha256 := by
  refine ⟨rfl, ⟨_, rfl⟩, rfl, ⟨_, rfl, rfl⟩, rfl, ⟨_, rfl, rfl⟩, rfl, by decide, rfl, ?_⟩
  have h : (keyed .sha256 []).hm.inner.count.toNat = 64 := fed_pad_count (a := .sha256) _
  rw [h]; decide

theorem witness_ElenExactlyForLongOutputs :
    (hashing .sha256).Inv ∧ (hashing .sha256).ctx.phase = .absorbing ∧
    digestSizeOf (hashing .sha256).ctx.alg < (33#7).toNat ∧ ¬ digestSizeOf (hashing .sha256).ctx.alg < (32#7).toNat :=
  ⟨hashing_inv _, rfl, by decide, by decide⟩

theorem witness_EovfExactlyPastMaxlen : (keyed .sha256 [0x4a]).Inv := keyed_inv _ _

/-- A decode error and a phase error. -/
theorem witness_ErrorsChangeNothing :
    (∃ t, step (offered (.command ⟨0#32, 0, []⟩) State.reset) = .next t ∧
      t.responses = State.reset.responses ++ [⟨.eopc, 0, []⟩]) ∧
    (∃ t, step (offered (.command ⟨0x00080003#32, 0, []⟩) State.reset) = .next t ∧
      t.responses = State.reset.responses ++ [⟨.estate, 0, []⟩]) :=
  ⟨⟨_, rfl, rfl⟩, ⟨_, rfl, rfl⟩⟩

theorem witness_ContextAndHmacShareNothing :
    (∃ t, exec (.init .sha256) State.reset = .next t) ∧ onContext (.init .sha256) = true ∧
    (∃ t, exec .hmacReinit State.reset = .next t) ∧ onContext .hmacReinit = false :=
  ⟨⟨_, rfl⟩, rfl, ⟨_, rfl⟩, rfl⟩

/-- An idle step, a reset, and a HMAC_INIT: the three clauses. -/
theorem witness_SavedContextsWrittenOnlyByHmacInit :
    (∃ t, step State.reset = .next t) ∧ (∃ t, step (offered (.reset none) State.reset) = .next t) ∧
    (∃ t, step (offered (.command ⟨0x00000211#32, 0, []⟩) State.reset) = .next t) ∧
    decode ⟨0x00000211#32, 0, []⟩ = .ok (.hmacInit .sha256 []) :=
  ⟨⟨_, rfl⟩, ⟨_, rfl⟩, ⟨_, rfl⟩, by decide⟩

/-- Reset of a hashing context, and of a keyed unit. -/
theorem witness_OnlyResetReturnsToEmpty :
    (∃ t, step (offered (.reset none) (hashing .sha256)) = .next t ∧
      (hashing .sha256).ctx.phase ≠ .empty ∧ t.ctx.phase = .empty) ∧
    (∃ t, step (offered (.reset none) (keyed .sha256 [])) = .next t ∧
      (keyed .sha256 []).hm.phase ≠ .empty ∧ t.hm.phase = .empty) :=
  ⟨⟨_, rfl, by decide, rfl⟩, ⟨_, rfl, by show Phase.absorbing ≠ .empty; decide, rfl⟩⟩

theorem witness_NoStepChangesTheSuffix :
    ∃ t, step (offered (.command ⟨0x00000201#32, 0, []⟩) State.reset) = .next t := ⟨_, rfl⟩

/-- Two states that hold different keys and agree on all the host can read. -/
theorem witness_RegisterViewHidesKeyMaterial :
    (∀ i ∈ [Instr.rdreg .hmacInfo, .init .sha256, .update [0x61], .final .full], onContext i = true) ∧
    (keyed .sha256 [0x4a]).ctx = (keyed .sha256 [0x4b]).ctx ∧
    (keyed .sha256 [0x4a]).keccakSuffix = (keyed .sha256 [0x4b]).keccakSuffix ∧
    (keyed .sha256 [0x4a]).hm.alg = (keyed .sha256 [0x4b]).hm.alg ∧
    (keyed .sha256 [0x4a]).hm.phase = (keyed .sha256 [0x4b]).hm.phase ∧
    (keyed .sha256 [0x4a]).hm.ipad[0] ≠ (keyed .sha256 [0x4b]).hm.ipad[0] :=
  ⟨by decide, by show Context.reset = Context.reset; rfl, by show KeccakSuffix.sha3 = .sha3; rfl,
    by show some Alg.sha256 = some .sha256; rfl, by show Phase.absorbing = .absorbing; rfl,
    by decide +kernel⟩

theorem witness_ResponsesAreNeverRead :
    ∃ t, step (offered (.command ⟨0#32, 0, []⟩) State.reset) = .next t := ⟨_, rfl⟩

/-- Two instances, the first with a command waiting, the second idle. -/
theorem witness_InstancesAreIndependent :
    (∃ s, step (offered (.command ⟨0x00000201#32, 0, []⟩) State.reset) = .next s) ∧
    (∃ e, deviceStep (deviceReset 2) 0 = .next e ∧ ∃ f, deviceStep e 1 = .next f) ∧ (1 : Fin 2) ≠ 0 :=
  ⟨⟨_, rfl⟩, ⟨_, rfl, _, rfl⟩, by decide⟩

/-- A hashing state that takes a step, and a keyed one. -/
theorem witness_EveryStepKeepsTheInvariant :
    ((hashing .sha256).Inv ∧ ∃ t, step (hashing .sha256) = .next t) ∧
    ((keyed .sha3_512 [0x4a]).Inv ∧ ∃ t, step (keyed .sha3_512 [0x4a]) = .next t) :=
  ⟨⟨hashing_inv _, _, rfl⟩, ⟨keyed_inv _ _, _, rfl⟩⟩

theorem witness_RotationsMoveBits :
    rotr 0x80000001#32 1 = 0xc0000000#32 ∧ rotl 0x80000001#32 1 = 0x00000003#32 ∧ 31 < 32 ∧ 0 < 32 := by decide

theorem witness_ChooseAndMajorityBitwise : ch 0b10#2 0b11#2 0b00#2 = 0b10#2 ∧ 1 < 2 := by decide

theorem witness_KeccakStepMappings : 4 < 5 ∧ 0 < 5 := by decide

end Sys2Proof.Tests
end

section
/-! PROOFS. Scope (00_scope.md): the build parameter KECCAK_SUFFIX is fixed, and the instances of a device are
independent. -/

namespace Sys2Proof.Machine

/-! ### KECCAK_SUFFIX (R9, R464) -/

/-- No command changes KECCAK_SUFFIX, whether it succeeds or answers an error. -/
theorem exec_keccakSuffix {i : Instr} {s t : State} (h : exec i s = .next t) :
    t.keccakSuffix = s.keccakSuffix := by
  obtain ⟨-, rfl⟩ | ⟨-, rfl⟩ := exec_cases h
  · rw [succeed_keccakSuffix, effect_after_keccakSuffix]
  · rw [raise_keccakSuffix]

/-- Settles O46: by the four things a step can do. Idling, reset and a decode error do not touch the field, and
a decoded command leaves it by `exec_keccakSuffix`. -/
theorem noStepChangesTheSuffix : Obligations.NoStepChangesTheSuffix := by
  intro s t h
  obtain ⟨-, rfl⟩ | ⟨p, rest, -, rfl⟩ | ⟨tr, rest, st, -, -, rfl⟩ | ⟨tr, rest, i, -, -, hrun⟩ := step_cases h
  · rfl
  · rw [resetInstance_keccakSuffix]
  · rw [raise_keccakSuffix]
  · exact (exec_keccakSuffix hrun :)

/-! ### Instances of a device (R10, R83, R429) -/

/-- What a step of instance i is: that instance's own step, written back at i. -/
theorem deviceStep_eq_next_iff {nInst : Nat} {d e : Device nInst} {i : Fin nInst} :
    deviceStep d i = .next e ↔ ∃ s, step d[i] = .next s ∧ e = d.set i s := by
  unfold deviceStep
  cases step d[i] <;> simp [eq_comm]

/-- Writing one instance leaves every other as it is. -/
theorem device_getElem_set_ne {nInst : Nat} (d : Device nInst) {i j : Fin nInst} (s : State) (h : i ≠ j) :
    (d.set i s)[j] = d[j] :=
  Vector.getElem_set_ne i.isLt j.isLt (Fin.val_ne_of_ne h)

/-- Settles O49: a device step is the instance's own step written back at its index
(`deviceStep_eq_next_iff`), and writes at two different indices neither see each other nor depend on their
order. -/
theorem instancesAreIndependent : Obligations.InstancesAreIndependent := by
  intro nInst d i
  refine ⟨fun e he => ?_, fun s hs => deviceStep_eq_next_iff.mpr ⟨s, hs, rfl⟩, fun j e f hji he hf => ?_⟩
  · obtain ⟨s, hs, rfl⟩ := deviceStep_eq_next_iff.mp he
    exact ⟨by simpa using hs, fun j hji => device_getElem_set_ne d s hji.symm⟩
  · obtain ⟨s, hs, rfl⟩ := deviceStep_eq_next_iff.mp he
    obtain ⟨u, hu, rfl⟩ := deviceStep_eq_next_iff.mp hf
    rw [device_getElem_set_ne d s hji.symm] at hu
    refine ⟨d.set j u, deviceStep_eq_next_iff.mpr ⟨u, hu, rfl⟩, deviceStep_eq_next_iff.mpr ⟨s, ?_, ?_⟩⟩
    · rw [device_getElem_set_ne d u hji, hs]
    · exact Vector.set_comm s u (Fin.val_ne_of_ne hji.symm)

end Sys2Proof.Machine
end

section
/-! PROOFS. State (10_state.md): reset values, the invariant, the register view, and what the hash context, the
HMAC unit and the host may see of one another. -/

namespace Sys2Proof.Machine

open Sys2Proof.Claims

/-! ### A command as a function: its response and its writes -/

/-- The response of a command: its value and output, or its error status with neither (R107, R416). -/
def commandResponse (i : Instr) (s : State) : Response :=
  if (effect i s).status = .ok then ⟨.ok, (effect i s).value, (effect i s).out⟩
  else ⟨(effect i s).status, 0#64, []⟩

/-- The state a command leaves, before its response joins the channel: its writes, or nothing on an error
(R416, R417). -/
def commandWrites (i : Instr) (s : State) : State :=
  if (effect i s).status = .ok then (effect i s).after else s

/-- All a command does is its writes, then its response. -/
theorem exec_eq_respond (i : Instr) (s : State) :
    exec i s = .next (respond (commandResponse i s) (commandWrites i s)) := by
  rw [exec_eq_complete]
  unfold commandResponse commandWrites
  by_cases hst : (effect i s).status = .ok
  · rw [if_pos hst, if_pos hst, hst, complete_ok]; rfl
  · rw [if_neg hst, if_neg hst, complete_error hst]; rfl

theorem exec_eq_next_iff {i : Instr} {s t : State} :
    exec i s = .next t ↔ t = respond (commandResponse i s) (commandWrites i s) := by
  rw [exec_eq_respond]
  exact ⟨fun h => by injection h with h; exact h.symm, fun h => by rw [h]⟩

/-- What holds of the state before a command and of its effect where it succeeds holds of the command's
writes. -/
theorem commandWrites_induct {P : State → Prop} {i : Instr} {s : State} (hs : P s)
    (he : (effect i s).status = .ok → P (effect i s).after) : P (commandWrites i s) := by
  unfold commandWrites
  split
  · exact he ‹_›
  · exact hs

@[simp] theorem commandWrites_keccakSuffix (i : Instr) (s : State) :
    (commandWrites i s).keccakSuffix = s.keccakSuffix :=
  commandWrites_induct (P := (·.keccakSuffix = s.keccakSuffix)) rfl fun _ => effect_after_keccakSuffix i s

@[simp] theorem commandWrites_responses (i : Instr) (s : State) :
    (commandWrites i s).responses = s.responses :=
  commandWrites_induct (P := (·.responses = s.responses)) rfl fun _ => effect_after_responses i s

theorem commandWrites_ctx (i : Instr) (s : State) :
    (commandWrites i s).ctx = if (effect i s).status = .ok then (effect i s).after.ctx else s.ctx :=
  apply_ite State.ctx ..

theorem commandWrites_hm (i : Instr) (s : State) :
    (commandWrites i s).hm = if (effect i s).status = .ok then (effect i s).after.hm else s.hm :=
  apply_ite State.hm ..

theorem commandResponse_congr {i : Instr} {s1 s2 : State} (hst : (effect i s1).status = (effect i s2).status)
    (hv : (effect i s1).value = (effect i s2).value) (ho : (effect i s1).out = (effect i s2).out) :
    commandResponse i s1 = commandResponse i s2 := by
  unfold commandResponse
  rw [hst, hv, ho]

/-! ### Reset (R60) -/

/-- Settles O13: the five context records of the reset state are all `Context.reset`, whose fields are
constants. -/
theorem resetValues : Obligations.ResetValues := by
  refine ⟨fun c hc => ?_, rfl, rfl, fun i => ?_, fun i => ?_⟩
  · obtain rfl : c = Context.reset := by simpa [State.reset, HmacUnit.reset] using hc
    simp [Context.reset]
  · simp [State.reset, HmacUnit.reset]
  · simp [State.reset, HmacUnit.reset]

/-- Settles O50: CTX and the HMAC unit each meet their invariant at reset. -/
theorem invariantHoldsAtReset : Obligations.InvariantHoldsAtReset := ⟨reset_context_inv, reset_hmac_inv⟩

/-! ### When a command's checks pass (R418 to R420) -/

theorem updateStatus_eq_ok_iff {p : Phase} {o : Option Alg} {count : Word64} {n : Nat} :
    updateStatus p o count n = .ok ↔ p = .absorbing ∧ count.toNat + n ≤ maxLenOf o := by
  unfold updateStatus
  split
  · simp [*]
  · split
    · simp; omega
    · simp_all

theorem finalStatus_eq_ok_iff {p : Phase} {o : Option Alg} {l : OutLen} :
    finalStatus p o l = .ok ↔ p = .absorbing ∧ outputLength o l ≤ digestSizeOf o := by
  unfold finalStatus
  split
  · simp [*]
  · split
    · simp; omega
    · simp_all

theorem keyStatus_eq_ok_iff {a : Alg} {key : Bytes} : keyStatus a key.length = .ok ↔ keyTaken a key := by
  unfold keyStatus keyTaken
  split
  · simp; omega
  · simp; omega

theorem reinitStatus_eq_ok_iff {p : Phase} : reinitStatus p = .ok ↔ p ≠ .empty := by
  unfold reinitStatus
  split <;> simp [*]

/-! ### The invariant (R35) -/

/-- A command whose checks pass leaves a state that meets the invariant: the checks supply the phase and the
room below MAXLEN that the primitives need, and the phase supplies the algorithm (R35(a)). -/
theorem effect_after_inv {i : Instr} {s : State} (hs : s.Inv) (hok : (effect i s).status = .ok) :
    (effect i s).after.Inv := by
  cases i with
  | init a => exact ⟨initCtx_inv a, hs.hm⟩
  | update m =>
    obtain ⟨hp, hm⟩ := updateStatus_eq_ok_iff.mp hok
    obtain ⟨a, ha⟩ := hs.ctx.algSome (by simp [hp])
    rw [ha] at hm
    exact ⟨feed_inv hs.ctx ha hp hm, hs.hm⟩
  | final l =>
    obtain ⟨hp, -⟩ := finalStatus_eq_ok_iff.mp hok
    obtain ⟨a, ha⟩ := hs.ctx.algSome (by simp [hp])
    exact ⟨finalizeCtx_inv _ hs.ctx ha, hs.hm⟩
  | rdreg r => exact hs
  | hmacInit a key => exact ⟨hs.ctx, loadKey_inv _ a key⟩
  | hmacUpdate m =>
    obtain ⟨hp, hm⟩ := updateStatus_eq_ok_iff.mp hok
    obtain ⟨a, ha⟩ := hs.hm.algSome (by simp [hp])
    rw [ha] at hm
    exact ⟨hs.ctx, hmacUpdate_inv hs.hm ha hp hm⟩
  | hmacFinal l =>
    obtain ⟨hp, -⟩ := finalStatus_eq_ok_iff.mp hok
    obtain ⟨a, ha⟩ := hs.hm.algSome (by simp [hp])
    exact ⟨hs.ctx, hmacFinalize_inv _ hs.hm ha hp⟩
  | hmacReinit =>
    obtain ⟨a, ha⟩ := hs.hm.algSome (reinitStatus_eq_ok_iff.mp hok)
    exact ⟨hs.ctx, hmacRestore_inv hs.hm ha⟩

/-- The channel is no part of the invariant. -/
theorem State.Inv.of_eq {s t : State} (hs : s.Inv) (hc : t.ctx = s.ctx) (hh : t.hm = s.hm) : t.Inv :=
  ⟨hc ▸ hs.ctx, hh ▸ hs.hm⟩

/-- Every command keeps the invariant, whether it succeeds or answers an error. -/
theorem exec_inv {i : Instr} {s t : State} (hs : s.Inv) (h : exec i s = .next t) : t.Inv := by
  obtain ⟨hok, rfl⟩ | ⟨-, rfl⟩ := exec_cases h
  · exact (effect_after_inv hs hok).of_eq rfl rfl
  · exact hs.of_eq rfl rfl

/-- Settles O51: by the four things a step can do. Idling and a decode error leave CTX and HM, a reset gives their
reset values, and a decoded command keeps the invariant by `exec_inv`. -/
theorem everyStepKeepsTheInvariant : Obligations.EveryStepKeepsTheInvariant := by
  intro s t hs h
  obtain ⟨-, rfl⟩ | ⟨p, rest, -, rfl⟩ | ⟨tr, rest, st, -, -, rfl⟩ | ⟨tr, rest, i, -, -, hrun⟩ := step_cases h
  · exact hs
  · exact invariantHoldsAtReset.of_eq rfl rfl
  · exact hs.of_eq rfl rfl
  · exact exec_inv (s := { s with inputs := rest }) (hs.of_eq rfl rfl) hrun

/-! ### The register view (R50 to R55) -/

theorem algFieldCode_toNat (o : Option Alg) : (algFieldCode o).toNat = algFieldNum o := by
  cases o with
  | none => rfl
  | some a => cases a <;> rfl

theorem phaseCode_toNat (p : Phase) : (phaseCode p).toNat = phaseNum p := by cases p <;> rfl

theorem blockSizeOf_lt (o : Option Alg) : blockSizeOf o < 256 := by
  cases o with
  | none => decide
  | some a => exact lt_of_le_of_lt (blockSize_le a) (by decide)

theorem digestSizeOf_lt (o : Option Alg) : digestSizeOf o < 256 := by
  cases o with
  | none => decide
  | some a => exact lt_of_le_of_lt (digestSize_le a) (by decide)

/-- CTX_INFO field by field (R51): each of the two sizes fits its byte. -/
theorem ctxInfo_toNat (c : Context) :
    (ctxInfo c).toNat = algFieldNum c.alg + 16 * phaseNum c.phase + 256 * c.buflen.toNat
      + 65536 * blockSizeOf c.alg + 16777216 * digestSizeOf c.alg := by
  have hbs := blockSizeOf_lt c.alg
  have hds := digestSizeOf_lt c.alg
  simp only [ctxInfo, toNat_append_add, BitVec.toNat_ofNat, algFieldCode_toNat, phaseCode_toNat]
  omega

/-- HMAC_INFO field by field (R53). -/
theorem hmacInfo_toNat (h : HmacUnit) :
    (hmacInfo h).toNat = algFieldNum h.alg + 16 * phaseNum h.phase := by
  simp only [hmacInfo, toNat_append_add, BitVec.toNat_ofNat, algFieldCode_toNat, phaseCode_toNat]
  omega

/-- Byte j of a little-endian number counts 256^j. -/
theorem leNat_map_range (f : Nat → Byte) (n : Nat) :
    leNat ((List.range n).map f) = ((List.range n).map fun j => (f j).toNat * 256 ^ j).sum := by
  induction n with
  | zero => rfl
  | succ n ih =>
    simp only [List.range_succ, List.map_append, leNat_append, ih, List.sum_append, List.map_cons,
      List.map_nil, leNat_singleton, List.length_map, List.length_range, List.sum_singleton, Nat.mul_comm]

theorem bufViewByte_toNat (c : Context) (i : Nat) :
    (bufViewByte c i).toNat = if i < c.buflen.toNat then (c.buf.toList.getD i 0).toNat else 0 := by
  unfold bufViewByte
  split <;> rfl

/-- CTX_BUFW[k] as the sum of its eight bytes (R55), which fit the word. -/
theorem ctxBufWord_toNat (c : Context) (k : Nat) :
    (ctxBufWord c k).toNat
      = ((List.range 8).map fun j => (bufViewByte c (8 * k + j)).toNat * 256 ^ j).sum := by
  have hlt := leNat_lt ((List.range 8).map fun j => bufViewByte c (8 * k + j))
  rw [List.length_map, List.length_range, show 256 ^ 8 = 2 ^ 64 from rfl] at hlt
  rw [ctxBufWord, leWord, BitVec.toNat_ofNat, Nat.mod_eq_of_lt hlt, leNat_map_range]

theorem regView_toNat (s : State) (r : Reg) : (regView s.ctx s.hm r).toNat = regNum s r := by
  cases r with
  | ctxInfo => exact ctxInfo_toNat s.ctx
  | ctxCount => rfl
  | hmacInfo => exact hmacInfo_toNat s.hm
  | ctxS i => rfl
  | ctxBufw k => simp only [regView, regNum, ctxBufWord_toNat, bufViewByte_toNat]

/-- Settles O24: RDREG answers the register view, whose content `regView_toNat` reads register by register. -/
theorem rdregReadsTheRegisterView : Obligations.RdregReadsTheRegisterView :=
  fun s r => ⟨regView s.ctx s.hm r, regView_toNat s r, rfl⟩

/-! ### Loading a key (R361, R370) -/

/-- Byte i of a pad register is the key's byte masked, and 0 past the block (R43, R361). -/
theorem padRegister_xorRep_getElem {a : Alg} {kp : Bytes} (hk : kp.length = blockSize a) (b : Byte)
    (i : Fin 144) :
    (padRegister (xorRep kp b))[i]
      = if i.val < blockSize a then kp.getD i.val 0x00#8 ^^^ b else 0x00#8 := by
  show (padRegister _)[i.val] = _
  rw [padRegister_getElem _ _ i.isLt]
  split
  · simp [List.getD, xorRep, *]
  · rw [getD_of_length_le (by rw [xorRep_length]; omega)]

/-- The block of a pad register is the masked key. -/
theorem padRegister_xorRep_take {a : Alg} {kp : Bytes} (hk : kp.length = blockSize a) (b : Byte) :
    (padRegister (xorRep kp b)).toList.take (blockSize a) = xorRep kp b := by
  have hlen : (xorRep kp b).length = blockSize a := by rw [xorRep_length, hk]
  have htake := padRegister_take (m := xorRep kp b) (by rw [hlen]; exact blockSize_le a)
  rwa [hlen] at htake

theorem loadKey_inner (k : KeccakSuffix) (a : Alg) (key : Bytes) :
    (loadKey k a key).inner = feed (initCtx a) (xorRep (keyNorm k a key) 0x36#8) := by
  show feed (initCtx a) _ = _
  rw [padRegister_xorRep_take (keyNorm_length k a key)]

theorem loadKey_outer (k : KeccakSuffix) (a : Alg) (key : Bytes) :
    (loadKey k a key).outer = feed (initCtx a) (xorRep (keyNorm k a key) 0x5c#8) := by
  show feed (initCtx a) _ = _
  rw [padRegister_xorRep_take (keyNorm_length k a key)]

theorem exec_hmacInit {s : State} {a : Alg} {key : Bytes} (hk : keyTaken a key) :
    exec (.hmacInit a key) s = .next (succeed 0#64 [] { s with hm := loadKey s.keccakSuffix a key }) := by
  show complete (keyStatus a key.length) _ _ _ _ = _
  rw [keyStatus_eq_ok_iff.mpr hk, complete_ok]

/-- Settles O27: a key that HMAC_INIT takes passes its check, and the unit it leaves is `loadKey`. -/
theorem hmacInitLoadsTheKey : Obligations.HmacInitLoadsTheKey := by
  intro s a key hk
  have hlen := keyNorm_length s.keccakSuffix a key
  exact ⟨_, exec_hmacInit hk, rfl, rfl, rfl, rfl, rfl, rfl, padRegister_xorRep_getElem hlen _,
    padRegister_xorRep_getElem hlen _, loadKey_inner .., loadKey_outer .., rfl, rfl⟩

/-! ### The hash context and the HMAC unit share nothing (R44) -/

/-- A context command leaves the HMAC unit. -/
theorem commandWrites_hm_of_onContext {i : Instr} (hi : onContext i = true) (s : State) :
    (commandWrites i s).hm = s.hm :=
  commandWrites_induct (P := (·.hm = s.hm)) rfl fun _ => by
    cases i with
    | init _ | update _ | final _ | rdreg _ => rfl
    | hmacInit _ _ | hmacUpdate _ | hmacFinal _ | hmacReinit => cases hi

/-- An HMAC command leaves the hash context. -/
theorem commandWrites_ctx_of_onHmac {i : Instr} (hi : onContext i = false) (s : State) :
    (commandWrites i s).ctx = s.ctx :=
  commandWrites_induct (P := (·.ctx = s.ctx)) rfl fun _ => by
    cases i with
    | init _ | update _ | final _ | rdreg _ => cases hi
    | hmacInit _ _ | hmacUpdate _ | hmacFinal _ | hmacReinit => rfl

/-- What a context command checks, outputs and writes comes from CTX and KECCAK_SUFFIX alone; RDREG's value may
come from HM too (`effect_value_congr_of_onContext`). -/
theorem effect_congr_of_onContext {i : Instr} (hi : onContext i = true) {s1 s2 : State}
    (hc : s1.ctx = s2.ctx) (hk : s1.keccakSuffix = s2.keccakSuffix) :
    (effect i s1).status = (effect i s2).status ∧ (effect i s1).out = (effect i s2).out ∧
      (effect i s1).after.ctx = (effect i s2).after.ctx := by
  cases i with
  | init _ | update _ | final _ | rdreg _ => simp only [effect, hc, hk, and_self]
  | hmacInit _ _ | hmacUpdate _ | hmacFinal _ | hmacReinit => cases hi

/-- An HMAC command reads HM and KECCAK_SUFFIX alone. -/
theorem effect_congr_of_onHmac {i : Instr} (hi : onContext i = false) {s1 s2 : State}
    (hh : s1.hm = s2.hm) (hk : s1.keccakSuffix = s2.keccakSuffix) :
    (effect i s1).status = (effect i s2).status ∧ (effect i s1).value = (effect i s2).value ∧
      (effect i s1).out = (effect i s2).out ∧ (effect i s1).after.hm = (effect i s2).after.hm := by
  cases i with
  | init _ | update _ | final _ | rdreg _ => cases hi
  | hmacInit _ _ | hmacUpdate _ | hmacFinal _ | hmacReinit => simp only [effect, hh, hk, and_self]

theorem commandWrites_ctx_congr {i : Instr} (hi : onContext i = true) {s1 s2 : State} (hc : s1.ctx = s2.ctx)
    (hk : s1.keccakSuffix = s2.keccakSuffix) : (commandWrites i s1).ctx = (commandWrites i s2).ctx := by
  obtain ⟨hst, -, hafter⟩ := effect_congr_of_onContext hi hc hk
  rw [commandWrites_ctx, commandWrites_ctx, hst, hafter, hc]

theorem commandWrites_hm_congr {i : Instr} (hi : onContext i = false) {s1 s2 : State} (hh : s1.hm = s2.hm)
    (hk : s1.keccakSuffix = s2.keccakSuffix) : (commandWrites i s1).hm = (commandWrites i s2).hm := by
  obtain ⟨hst, -, -, hafter⟩ := effect_congr_of_onHmac hi hh hk
  rw [commandWrites_hm, commandWrites_hm, hst, hafter, hh]

/-- A context command's value is 0, or the register that RDREG reads. -/
theorem effect_value_congr_of_onContext {i : Instr} (hi : onContext i = true) {s1 s2 : State}
    (hr : ∀ r, i = .rdreg r → regView s1.ctx s1.hm r = regView s2.ctx s2.hm r) :
    (effect i s1).value = (effect i s2).value := by
  cases i with
  | init _ | update _ | final _ => rfl
  | rdreg r => exact hr r rfl
  | hmacInit _ _ | hmacUpdate _ | hmacFinal _ | hmacReinit => cases hi

theorem commandResponse_congr_of_onContext {i : Instr} (hi : onContext i = true) {s1 s2 : State}
    (hc : s1.ctx = s2.ctx) (hk : s1.keccakSuffix = s2.keccakSuffix)
    (hr : ∀ r, i = .rdreg r → regView s1.ctx s1.hm r = regView s2.ctx s2.hm r) :
    commandResponse i s1 = commandResponse i s2 := by
  obtain ⟨hst, hout, -⟩ := effect_congr_of_onContext hi hc hk
  exact commandResponse_congr hst (effect_value_congr_of_onContext hi hr) hout

theorem commandResponse_congr_of_onHmac {i : Instr} (hi : onContext i = false) {s1 s2 : State}
    (hh : s1.hm = s2.hm) (hk : s1.keccakSuffix = s2.keccakSuffix) :
    commandResponse i s1 = commandResponse i s2 := by
  obtain ⟨hst, hval, hout, -⟩ := effect_congr_of_onHmac hi hh hk
  exact commandResponse_congr hst hval hout

/-- Settles O43: the frames and the congruences of a command's writes and response, for the two halves of the
command set. -/
theorem contextAndHmacShareNothing : Obligations.ContextAndHmacShareNothing := by
  intro i s t h
  obtain rfl := exec_eq_next_iff.mp h
  refine ⟨?_, fun hm hi => ⟨_, exec_eq_respond .., ?_, ?_, fun hr => ?_⟩,
    fun c hi => ⟨_, exec_eq_respond .., ?_, ?_, ?_⟩⟩
  · split
    · exact commandWrites_hm_of_onContext ‹_› s
    · exact commandWrites_ctx_of_onHmac (by simpa using ‹¬ onContext i = true›) s
  · exact commandWrites_ctx_congr hi rfl rfl
  · exact commandWrites_hm_of_onContext hi _
  · simp [commandResponse_congr_of_onContext hi (s1 := { s with hm := hm }) (s2 := s) rfl rfl
      fun r h => absurd h (hr r)]
  · exact commandWrites_hm_congr hi rfl rfl
  · exact commandWrites_ctx_of_onHmac hi _
  · simp [commandResponse_congr_of_onHmac hi (s1 := { s with ctx := c }) (s2 := s) rfl rfl]

/-! ### The baseline of a key (R41, R43) -/

/-- What HMAC_INIT saves of a key: the saved contexts and the pads. -/
def HmacUnit.baseline (h : HmacUnit) : Context × Context × Vector Byte 144 × Vector Byte 144 :=
  (h.sinner, h.souter, h.ipad, h.opad)

/-- No command but HMAC_INIT writes the baseline. -/
theorem exec_baseline {i : Instr} {s t : State} (hi : loadsKey i = false) (h : exec i s = .next t) :
    t.hm.baseline = s.hm.baseline := by
  obtain rfl := exec_eq_next_iff.mp h
  rw [respond_hm]
  refine commandWrites_induct (P := (·.hm.baseline = s.hm.baseline)) rfl fun _ => ?_
  cases i with
  | init _ | update _ | final _ | rdreg _ | hmacUpdate _ | hmacFinal _ | hmacReinit => rfl
  | hmacInit _ _ => cases hi

theorem eq_hmacInit_of_loadsKey {i : Instr} (hi : loadsKey i = true) : ∃ a key, i = .hmacInit a key := by
  cases i with
  | hmacInit a key => exact ⟨a, key, rfl⟩
  | init _ | update _ | final _ | rdreg _ | hmacUpdate _ | hmacFinal _ | hmacReinit => cases hi

/-- Settles O44: idling and a decode error leave HM, and a decoded command other than HMAC_INIT leaves the
baseline by `exec_baseline`. -/
theorem savedContextsWrittenOnlyByHmacInit : Obligations.SavedContextsWrittenOnlyByHmacInit := by
  intro s t h
  obtain ⟨-, rfl⟩ | ⟨p, rest, hin, -⟩ | ⟨tr, rest, st, -, -, rfl⟩ | ⟨tr, rest, i, hin, hd, hrun⟩ :=
    step_cases h
  · exact .inl ⟨rfl, rfl, rfl, rfl⟩
  · exact .inr (.inl ⟨p, rest, hin⟩)
  · exact .inl ⟨rfl, rfl, rfl, rfl⟩
  · cases hk : loadsKey i with
    | false => exact .inl (by simpa [HmacUnit.baseline] using exec_baseline hk hrun)
    | true =>
      obtain ⟨a, key, rfl⟩ := eq_hmacInit_of_loadsKey hk
      exact .inr (.inr ⟨tr, rest, a, key, hin, hd⟩)

/-! ### Leaving EMPTY is final (R61) -/

/-- No command puts CTX.phase or HM.phase into EMPTY: it keeps the phase, or writes ABSORBING or FINALIZED. -/
theorem exec_phases_ne_empty {i : Instr} {s t : State} (h : exec i s = .next t) :
    (s.ctx.phase ≠ .empty → t.ctx.phase ≠ .empty) ∧ (s.hm.phase ≠ .empty → t.hm.phase ≠ .empty) := by
  obtain rfl := exec_eq_next_iff.mp h
  rw [respond_ctx, respond_hm]
  refine commandWrites_induct (P := fun u => (s.ctx.phase ≠ .empty → u.ctx.phase ≠ .empty) ∧
    (s.hm.phase ≠ .empty → u.hm.phase ≠ .empty)) ⟨id, id⟩ fun _ => ?_
  cases i with
  | rdreg _ => exact ⟨id, id⟩
  | init _ | update _ | final _ => exact ⟨by simp [effect], id⟩
  | hmacInit _ _ | hmacUpdate _ | hmacFinal _ | hmacReinit => exact ⟨id, by simp [effect]⟩

/-- Settles O45: of the four things a step can do, only a reset is not ruled out: idling and a decode error leave
both phases, and no decoded command puts one into EMPTY (`exec_phases_ne_empty`). -/
theorem onlyResetReturnsToEmpty : Obligations.OnlyResetReturnsToEmpty := by
  intro s t h hempty
  obtain ⟨-, rfl⟩ | ⟨p, rest, hin, -⟩ | ⟨tr, rest, st, -, -, rfl⟩ | ⟨tr, rest, i, -, -, hrun⟩ := step_cases h
  · simp at hempty
  · exact ⟨p, rest, hin⟩
  · simp at hempty
  · obtain ⟨hctx, hhm⟩ := exec_phases_ne_empty hrun
    obtain ⟨hs, ht⟩ | ⟨hs, ht⟩ := hempty
    · exact absurd ht (hctx hs)
    · exact absurd ht (hhm hs)

/-! ### What the host can see of a key (R43, R53, R426) -/

/-- Two states that the context commands and RDREG cannot tell apart. -/
structure SameHostView (s1 s2 : State) : Prop where
  ctx : s1.ctx = s2.ctx
  keccakSuffix : s1.keccakSuffix = s2.keccakSuffix
  hmAlg : s1.hm.alg = s2.hm.alg
  hmPhase : s1.hm.phase = s2.hm.phase

/-- The register view shows HM.alg and HM.phase of HM, and nothing else (R53). -/
theorem SameHostView.regView_eq {s1 s2 : State} (h : SameHostView s1 s2) (r : Reg) :
    regView s1.ctx s1.hm r = regView s2.ctx s2.hm r := by
  cases r with
  | ctxInfo | ctxCount | ctxS _ | ctxBufw _ => simp only [regView, h.ctx]
  | hmacInfo => simp only [regView, hmacInfo, h.hmAlg, h.hmPhase]

theorem SameHostView.commandResponse_eq {s1 s2 : State} (h : SameHostView s1 s2) {i : Instr}
    (hi : onContext i = true) : commandResponse i s1 = commandResponse i s2 :=
  commandResponse_congr_of_onContext hi h.ctx h.keccakSuffix fun r _ => h.regView_eq r

/-- One context command keeps two such states alike. -/
theorem SameHostView.respond_commandWrites {s1 s2 : State} (h : SameHostView s1 s2) {i : Instr}
    (hi : onContext i = true) (r1 r2 : Response) :
    SameHostView (respond r1 (commandWrites i s1)) (respond r2 (commandWrites i s2)) where
  ctx := commandWrites_ctx_congr hi h.ctx h.keccakSuffix
  keccakSuffix := by simpa using h.keccakSuffix
  hmAlg := by simpa [commandWrites_hm_of_onContext hi] using h.hmAlg
  hmPhase := by simpa [commandWrites_hm_of_onContext hi] using h.hmPhase

theorem runCommands_cons (i : Instr) (is : List Instr) (s : State) :
    runCommands (i :: is) s = runCommands is (respond (commandResponse i s) (commandWrites i s)) := by
  rw [runCommands, exec_eq_respond]

/-- Two states alike to the host answer every sequence of context commands alike. -/
theorem SameHostView.runCommands_answers {is : List Instr} (his : ∀ i ∈ is, onContext i = true)
    {s1 s2 : State} (h : SameHostView s1 s2) :
    ∃ t1 t2 answered, runCommands is s1 = .next t1 ∧ runCommands is s2 = .next t2 ∧
      t1.responses = s1.responses ++ answered ∧ t2.responses = s2.responses ++ answered ∧
      t1.ctx = t2.ctx := by
  induction is generalizing s1 s2 with
  | nil => exact ⟨s1, s2, [], rfl, rfl, by simp, by simp, h.ctx⟩
  | cons i is ih =>
    obtain ⟨hi, his⟩ := List.forall_mem_cons.mp his
    obtain ⟨t1, t2, answered, hrun1, hrun2, hr1, hr2, hctx⟩ :=
      ih his (h.respond_commandWrites hi (commandResponse i s1) (commandResponse i s2))
    refine ⟨t1, t2, commandResponse i s1 :: answered, ?_, ?_, ?_, ?_, hctx⟩
    · rw [runCommands_cons, hrun1]
    · rw [runCommands_cons, hrun2]
    · simp [hr1]
    · simp [hr2, h.commandResponse_eq hi]

/-- Settles O47: by induction on the sequence, since each context command answers two states alike to the host
alike and keeps them so. -/
theorem registerViewHidesKeyMaterial : Obligations.RegisterViewHidesKeyMaterial :=
  fun _ _ _ his hctx hk halg hphase => SameHostView.runCommands_answers his ⟨hctx, hk, halg, hphase⟩

/-! ### Earlier responses (R39, R422) -/

/-- A command's effect only carries the response list along. -/
theorem effect_withResponses (i : Instr) (s : State) (rs : List Response) :
    effect i { s with responses := rs }
      = { effect i s with after := { (effect i s).after with responses := rs } } := by
  cases i <;> rfl

theorem commandResponse_withResponses (i : Instr) (s : State) (rs : List Response) :
    commandResponse i { s with responses := rs } = commandResponse i s := by
  simp only [commandResponse, effect_withResponses]

theorem commandWrites_withResponses (i : Instr) (s : State) (rs : List Response) :
    commandWrites i { s with responses := rs } = { commandWrites i s with responses := rs } := by
  simp only [commandWrites, effect_withResponses]
  split <;> rfl

/-- A command appends its response to whatever was answered before, and leaves all else as it would. -/
theorem exec_withResponses (i : Instr) (s : State) (rs : List Response) :
    exec i { s with responses := rs }
      = .next { commandWrites i s with responses := rs ++ [commandResponse i s] } := by
  rw [exec_eq_respond, commandResponse_withResponses, commandWrites_withResponses]
  rfl

theorem transact_error {run : Instr → State → Host.Outcome State Fault Refusal} {t : Transaction}
    {st : Status} (hd : decode t = .error (.status st)) (s : State) :
    transact run t s = .next (raise st s) := by
  rw [transact, hd]

theorem transact_ok {run : Instr → State → Host.Outcome State Fault Refusal} {t : Transaction} {i : Instr}
    (hd : decode t = .ok i) (s : State) : transact run t s = run i s := by
  rw [transact, hd]

/-- Settles O48: by the four things a step can do. Idling and reset answer nothing, a decode error answers its
status, and a decoded command its response, none of them from the response list. -/
theorem responsesAreNeverRead : Obligations.ResponsesAreNeverRead := by
  intro s t earlier h
  obtain ⟨hin, rfl⟩ | ⟨p, rest, hin, rfl⟩ | ⟨tr, rest, st, hin, hd, rfl⟩ | ⟨tr, rest, i, hin, hd, hrun⟩ :=
    step_cases h
  · refine ⟨[], by simp, ?_⟩
    rw [step_idle (s := { t with responses := earlier }) hin, List.append_nil]
  · refine ⟨[], by simp, ?_⟩
    rw [step_reset (s := { s with responses := earlier }) hin, List.append_nil]
    rfl
  · refine ⟨[⟨st, 0#64, []⟩], rfl, ?_⟩
    rw [step_command (s := { s with responses := earlier }) hin, transact_error hd]
    rfl
  · obtain rfl := exec_eq_next_iff.mp hrun
    refine ⟨[commandResponse i { s with inputs := rest }], by simp, ?_⟩
    rw [step_command (s := { s with responses := earlier }) hin, transact_ok hd]
    exact exec_withResponses i { s with inputs := rest } earlier

end Sys2Proof.Machine
end

section
/-! PROOFS. Memory and ordering (20_memory.md): the step runs the next command of the channel, what repeating a
command does, and HASH over the channel against the hash of the whole message. -/

namespace Sys2Proof.Machine

open Sys2Proof.Claims

/-! ### The next input of the channel (R87, R100) -/

/-- Settles O8: the step takes the transaction off the channel, and a transaction that decodes runs its
command. -/
theorem stepRunsTheDecodedCommand : Obligations.StepRunsTheDecodedCommand := by
  intro s t rest i hin hd
  rw [step_command hin, transact_ok hd]

theorem decodeTableWord_eq_some_iff {nbits w : Nat} {i : Instr} :
    decodeTableWord nbits w = some i ↔ decode (transactionOfTableWord nbits w) = .ok i := by
  unfold decodeTableWord
  split <;> simp [*]

/-- Settles O14: placing the word puts its transaction at the head of the channel, so this is
`stepRunsTheDecodedCommand`; taking it off again leaves the state itself. -/
theorem stepRunsAPlacedTableWord : Obligations.StepRunsAPlacedTableWord :=
  fun s _ _ i h => stepRunsTheDecodedCommand _ _ s.inputs i rfl (decodeTableWord_eq_some_iff.mp h)

/-! ### Commands that may be repeated (R79) -/

/-- After a repeatable command succeeded, the same command has the same effect. -/
theorem effect_after_of_repeatable {i : Instr} (hi : repeatable i = true) {s : State}
    (hok : (effect i s).status = .ok) : effect i (effect i s).after = effect i s := by
  cases i with
  | init _ | rdreg _ | hmacInit _ _ => rfl
  | hmacReinit =>
    have hst : reinitStatus s.hm.phase = .ok := hok
    simp only [effect, hst]
    rfl
  | update _ | final _ | hmacUpdate _ | hmacFinal _ => cases hi

/-- Repeating a repeatable command, succeeding or not, writes nothing new and answers the same. -/
theorem repeatable_twice {i : Instr} (hi : repeatable i = true) (s : State) :
    commandWrites i (commandWrites i s) = commandWrites i s ∧
      commandResponse i (commandWrites i s) = commandResponse i s := by
  by_cases hok : (effect i s).status = .ok
  · have hw : commandWrites i s = (effect i s).after := if_pos hok
    have he := effect_after_of_repeatable hi hok
    rw [hw, commandWrites, commandResponse, he, if_pos hok, commandResponse]
    exact ⟨rfl, rfl⟩
  · have hw : commandWrites i s = s := if_neg hok
    simp only [hw, and_self]

theorem commandResponse_status (i : Instr) (s : State) : (commandResponse i s).status = (effect i s).status := by
  unfold commandResponse
  split
  · exact Eq.symm ‹_›
  · rfl

theorem answers_iff {i : Instr} {s : State} {st : Status} : answers i s st ↔ (effect i s).status = st := by
  rw [← commandResponse_status]
  constructor
  · rintro ⟨t, r, hrun, hr, rfl⟩
    obtain rfl := exec_eq_next_iff.mp hrun
    simp at hr
    rw [hr]
  · exact fun h => ⟨_, _, exec_eq_respond i s, by simp, h⟩

theorem exec_of_ok {i : Instr} {s : State} (h : (effect i s).status = .ok) :
    exec i s = .next (succeed (effect i s).value (effect i s).out (effect i s).after) := by
  rw [exec_eq_complete, h, complete_ok]

theorem finalStatus_of_finalized {p : Phase} (hp : p = .finalized) (o : Option Alg) (l : OutLen) :
    finalStatus p o l = .estate := by
  rw [hp]; rfl

/-- UPDATE in ABSORBING, within MAXLEN. -/
theorem exec_update {s : State} {a : Alg} {m : Bytes} (ha : s.ctx.alg = some a)
    (hp : s.ctx.phase = .absorbing) (hfit : s.ctx.count.toNat + m.length ≤ maxLen a) :
    exec (.update m) s = .next (succeed 0#64 [] { s with ctx := feed s.ctx m }) :=
  exec_of_ok (i := .update m) (updateStatus_eq_ok_iff.mpr ⟨hp, by rwa [ha]⟩)

/-- HMAC_UPDATE in ABSORBING, within MAXLEN. -/
theorem exec_hmacUpdate {s : State} {a : Alg} {m : Bytes} (ha : s.hm.alg = some a)
    (hp : s.hm.phase = .absorbing) (hfit : s.hm.inner.count.toNat + m.length ≤ maxLen a) :
    exec (.hmacUpdate m) s = .next (succeed 0#64 [] { s with hm := { s.hm with inner := feed s.hm.inner m } }) :=
  exec_of_ok (i := .hmacUpdate m) (updateStatus_eq_ok_iff.mpr ⟨hp, by rwa [ha]⟩)

theorem runCommands_cons_eq_next {i : Instr} {is : List Instr} {s t u : State} (h : exec i s = .next t)
    (hs : runCommands is t = .next u) : runCommands (i :: is) s = .next u := by
  rw [runCommands, h]
  exact hs

/-- A byte string that fits below MAXLEN also fits in two parts, one after the other. -/
theorem feed_fits {c : Context} {a : Alg} {m n : Bytes}
    (hfit : c.count.toNat + (m ++ n).length ≤ maxLen a) :
    c.count.toNat + m.length ≤ maxLen a ∧ (feed c m).count.toNat + n.length ≤ maxLen a := by
  rw [List.length_append] at hfit
  have hm : c.count.toNat + m.length ≤ maxLen a := by omega
  rw [feed_count_toNat hm]
  exact ⟨hm, by omega⟩

/-- Two UPDATEs leave the context that one UPDATE of both byte strings leaves. -/
theorem update_update {s : State} {a : Alg} {m n : Bytes} (ha : s.ctx.alg = some a)
    (hp : s.ctx.phase = .absorbing) (hfit : s.ctx.count.toNat + (m ++ n).length ≤ maxLen a) :
    ∃ t u, runCommands [.update m, .update n] s = .next t ∧ exec (.update (m ++ n)) s = .next u ∧
      t.ctx = u.ctx := by
  obtain ⟨hm, hn⟩ := feed_fits hfit
  exact ⟨_, _, runCommands_cons_eq_next (exec_update ha hp hm) (runCommands_cons_eq_next
    (exec_update (a := a) (by simp [ha]) (by simp [hp]) hn) rfl), exec_update ha hp hfit,
    (feed_append s.ctx m n).symm⟩

/-- Two HMAC_UPDATEs leave the unit that one HMAC_UPDATE of both byte strings leaves. -/
theorem hmacUpdate_hmacUpdate {s : State} {a : Alg} {m n : Bytes} (ha : s.hm.alg = some a)
    (hp : s.hm.phase = .absorbing) (hfit : s.hm.inner.count.toNat + (m ++ n).length ≤ maxLen a) :
    ∃ t u, runCommands [.hmacUpdate m, .hmacUpdate n] s = .next t ∧
      exec (.hmacUpdate (m ++ n)) s = .next u ∧ t.hm = u.hm := by
  obtain ⟨hm, hn⟩ := feed_fits hfit
  exact ⟨_, _, runCommands_cons_eq_next (exec_hmacUpdate ha hp hm) (runCommands_cons_eq_next
    (exec_hmacUpdate (a := a) ha hp hn) rfl), exec_hmacUpdate ha hp hfit, by simp [feed_append]⟩

/-- Settles O36: a repeatable command has the same effect again, the phase check of FINAL and HMAC_FINAL fails in
FINALIZED, and Feed of a concatenation is Feed twice. -/
theorem repeatedCommands : Obligations.RepeatedCommands := by
  refine ⟨fun i s t hi h => ?_, fun s t l l' _ _ hfin => ?_, fun s t l l' _ _ hfin => ?_,
    fun s a m ha hp hfit => update_update ha hp hfit, fun s a m ha hp hfit => hmacUpdate_hmacUpdate ha hp hfit⟩
  · obtain rfl := exec_eq_next_iff.mp h
    obtain ⟨hw, hr⟩ := repeatable_twice hi s
    exact ⟨_, exec_withResponses i (commandWrites i s) _, (congrArg State.ctx hw :),
      (congrArg State.hm hw :), by simp [hr]⟩
  · exact answers_iff.mpr (finalStatus_of_finalized hfin _ _)
  · exact answers_iff.mpr (finalStatus_of_finalized hfin _ _)

/-! ### Messages block by block (R330) -/

theorem blocks_append (bs n : Nat) {m : Bytes} (h : n * bs ≤ m.length) (e : Bytes) :
    blocks bs n (m ++ e) = blocks bs n m := by
  induction n generalizing m with
  | zero => rfl
  | succ n ih =>
    rw [Nat.succ_mul] at h
    simp only [blocks]
    rw [List.take_append_of_le_length (by omega), List.drop_append_of_le_length (by omega),
      ih (by rw [List.length_drop]; omega)]

theorem afterBlocks_append (a : Alg) (s : Vector Word64 25) {n : Nat} {m : Bytes}
    (h : n * blockSize a ≤ m.length) (e : Bytes) : afterBlocks a s n (m ++ e) = afterBlocks a s n m := by
  unfold afterBlocks
  rw [blocks_append _ _ h]

theorem afterBlocks_succ (a : Alg) (s : Vector Word64 25) (n : Nat) (m : Bytes) :
    afterBlocks a s (n + 1) m
      = afterBlocks a (processStore (familyOf a) s (m.take (blockSize a))) n (m.drop (blockSize a)) := rfl

/-- Processing p + q blocks is processing p blocks, then q blocks of what is left. -/
theorem afterBlocks_add (a : Alg) (s : Vector Word64 25) (p q : Nat) (m : Bytes) :
    afterBlocks a s (p + q) m = afterBlocks a (afterBlocks a s p m) q (m.drop (p * blockSize a)) := by
  induction p generalizing s m with
  | zero => simp [afterBlocks, blocks]
  | succ p ih =>
    rw [Nat.add_right_comm, afterBlocks_succ, afterBlocks_succ, ih, List.drop_drop, Nat.succ_mul,
      Nat.add_comm (blockSize a)]

/-- A byte string of exactly one block. -/
theorem afterBlocks_one {a : Alg} (s : Vector Word64 25) {blk : Bytes} (h : blk.length = blockSize a) :
    afterBlocks a s 1 blk = processStore (familyOf a) s blk := by
  rw [afterBlocks_succ, ← h, List.take_length]
  rfl

/-! ### Absorb, block by block (R331) -/

theorem buffered_of_buflen_zero {c : Context} (h : c.buflen = 0#8) : buffered c = [] := by
  simp [buffered, bufBytes, h]

theorem blockSize_pos (a : Alg) : 0 < blockSize a := Nat.lt_of_lt_of_le (by decide) (blockSize_ge a)

theorem buffered_length_of_lt {c : Context} {a : Alg} (hb : c.buflen.toNat < blockSize a) :
    (buffered c).length = c.buflen.toNat :=
  buffered_length (le_trans (le_of_lt hb) (blockSize_le a))

/-- Absorb processes the whole blocks of the buffered bytes and m in order and buffers the rest. -/
theorem absorb_blockwise {c : Context} {a : Alg} (h : c.alg = some a) (hb : c.buflen.toNat < blockSize a)
    {m : Bytes} {n : Nat} (hn : (c.buflen.toNat + m.length) / blockSize a = n) :
    (absorb c m).store = afterBlocks a c.store n (buffered c ++ m) ∧
      buffered (absorb c m) = (buffered c ++ m).drop (n * blockSize a) := by
  have hbs := blockSize_pos a
  induction n generalizing c m with
  | zero =>
    obtain ⟨hstore, -, hbuf⟩ := absorb_short h m (Nat.lt_of_div_eq_zero hbs hn)
    exact ⟨hstore, by rw [hbuf, Nat.zero_mul, List.drop_zero]⟩
  | succ n ih =>
    obtain ⟨m1, m2, rfl, hm1⟩ : ∃ m1 m2, m = m1 ++ m2 ∧ c.buflen.toNat + m1.length = blockSize a := by
      have hge : blockSize a ≤ c.buflen.toNat + m.length := (Nat.div_pos_iff.mp (by omega)).2
      refine ⟨m.take (blockSize a - c.buflen.toNat), m.drop (blockSize a - c.buflen.toNat), by simp, ?_⟩
      rw [List.length_take]
      omega
    have hne : m1 ≠ [] := by rintro rfl; simp at hm1; omega
    obtain ⟨hstore, hzero⟩ := absorb_fill h hne hm1
    have hblk : (buffered c ++ m1).length = blockSize a := by
      rw [List.length_append, buffered_length_of_lt hb, hm1]
    have hrest : m2.length / blockSize a = n := by
      rw [List.length_append, ← Nat.add_assoc, hm1, Nat.add_div_left _ hbs] at hn
      exact Nat.succ.inj hn
    obtain ⟨ihs, ihb⟩ := ih (c := absorb c m1) (m := m2) (by rw [absorb_alg, h]) (by simpa [hzero] using hbs)
      (by simpa [hzero] using hrest)
    rw [buffered_of_buflen_zero hzero, List.nil_append] at ihs ihb
    rw [absorb_append, ← List.append_assoc, ihs, ihb, hstore]
    constructor
    · rw [afterBlocks_succ, ← hblk, List.take_left, List.drop_left]
    · rw [Nat.succ_mul, Nat.add_comm, ← List.drop_drop, ← hblk, List.drop_left]

/-! ### Bytes of a number (R143 to R146) -/

theorem extractLsb'_ofNat_byte {w i : Nat} (h : 8 * i + 8 ≤ w) (n : Nat) :
    (BitVec.ofNat w n).extractLsb' (8 * i) 8 = BitVec.ofNat 8 (n / 256 ^ i) := by
  have hw : 2 ^ w = 2 ^ (8 * i) * 2 ^ (w - 8 * i) := by rw [← pow_add]; congr 1; omega
  apply BitVec.eq_of_toNat_eq
  rw [BitVec.extractLsb'_toNat, BitVec.toNat_ofNat, BitVec.toNat_ofNat, Nat.shiftRight_eq_div_pow, hw,
    Nat.mod_mul_right_div_self, Nat.mod_mod_of_dvd _ (pow_dvd_pow 2 (by omega)), pow_mul]
  rfl

theorem leBytes_ofNat (w n : Nat) :
    leBytes (BitVec.ofNat w n) = (List.range (w / 8)).map fun i => BitVec.ofNat 8 (n / 256 ^ i) := by
  refine List.map_congr_left fun i hi => extractLsb'_ofNat_byte ?_ n
  have := List.mem_range.mp hi
  omega

theorem beBytes_ofNat {w : Nat} (h : 8 ∣ w) (n : Nat) :
    beBytes (BitVec.ofNat w n)
      = (List.range (w / 8)).map fun i => BitVec.ofNat 8 (n / 256 ^ (w / 8 - 1 - i)) := by
  refine List.map_congr_left fun i hi => ?_
  have hi := List.mem_range.mp hi
  rw [show w - 8 - 8 * i = 8 * (w / 8 - 1 - i) by omega, extractLsb'_ofNat_byte (by omega)]

/-- The length field is the bit length's bytes (R334). -/
theorem lenField_eq_lengthBytes (f : Family) (count : Word64) :
    lenField f count = lengthBytes f count.toNat := by
  cases f with
  | sha2_32 => exact beBytes_ofNat (w := 64) (by decide) _
  | sha2_64 => exact beBytes_ofNat (w := 128) (by decide) _
  | keccak => rfl
  | rmd160 => exact leBytes_ofNat 64 _

/-! ### The digest, byte by byte (R194, R242, R288) -/

/-- Byte i of n-byte words written one after the other is byte i mod n of word i / n. -/
theorem flatMap_eq_map_range {f : Word64 → Bytes} {g : Word64 → Nat → Byte} {n : Nat}
    (hf : ∀ x, f x = (List.range n).map (g x)) (ws : List Word64) :
    ws.flatMap f = (List.range (ws.length * n)).map fun i => g (ws.getD (i / n) 0) (i % n) := by
  induction ws with
  | nil => simp
  | cons x ws ih =>
    rw [List.flatMap_cons, hf, ih, List.length_cons, Nat.succ_mul, Nat.add_comm, List.range_add,
      List.map_append, List.map_map]
    congr 1
    · refine List.map_congr_left fun i hi => ?_
      have hi := List.mem_range.mp hi
      rw [Nat.div_eq_of_lt hi, Nat.mod_eq_of_lt hi]
      rfl
    · refine List.map_congr_left fun i hi => ?_
      have hn : 0 < n := Nat.pos_of_ne_zero (by rintro rfl; simp at hi)
      simp [Nat.add_div_left _ hn]

/-- The same for the first k words of the store. -/
theorem flatMap_take_store {f : Word64 → Bytes} {g : Word64 → Nat → Byte} {n k : Nat} (hk : k ≤ 25)
    (hf : ∀ x, f x = (List.range n).map (g x)) (s : Vector Word64 25) :
    (s.toList.take k).flatMap f
      = (List.range (k * n)).map fun i => g (s.toList.getD (i / n) 0) (i % n) := by
  rw [flatMap_eq_map_range hf, List.length_take, Vector.length_toList, min_eq_left hk]
  refine List.map_congr_left fun i hi => ?_
  have hi : i / n < k := Nat.div_lt_of_lt_mul (by rw [Nat.mul_comm]; exact List.mem_range.mp hi)
  simp [List.getD, hi]

theorem store_take_eight (s : Vector Word64 25) :
    s.toList.take 8 = [s[0], s[1], s[2], s[3], s[4], s[5], s[6], s[7]] :=
  List.ext_getElem (by simp) fun i _ h => by
    simp at h
    interval_cases i <;> simp

theorem store_take_five (s : Vector Word64 25) : s.toList.take 5 = [s[0], s[1], s[2], s[3], s[4]] := by
  have h := congrArg (List.take 5) (store_take_eight s)
  rwa [List.take_take] at h

/-- The bytes of a family's view of the store are the digest bytes, before truncation. -/
theorem serialise_eq_map_digestByte (f : Family) (s : Vector Word64 25) :
    serialise f s = (List.range (serialise f s).length).map (digestByte f s) := by
  rw [serialise_length]
  cases f with
  | sha2_32 =>
    have hw : serialise .sha2_32 s = (s.toList.take 8).flatMap fun x => beBytes (BitVec.ofNat 32 x.toNat) := by
      rw [store_take_eight]; rfl
    rw [hw, flatMap_take_store (by decide) (fun x => beBytes_ofNat (by decide) x.toNat)]
    rfl
  | sha2_64 =>
    have hw : serialise .sha2_64 s = (s.toList.take 8).flatMap fun x => beBytes (BitVec.ofNat 64 x.toNat) := by
      simp only [store_take_eight, BitVec.ofNat_toNat, BitVec.setWidth_eq]; rfl
    rw [hw, flatMap_take_store (by decide) (fun x => beBytes_ofNat (by decide) x.toNat)]
    rfl
  | keccak =>
    have hw : serialise .keccak s = (s.toList.take 25).flatMap fun x => leBytes (BitVec.ofNat 64 x.toNat) := by
      rw [List.take_of_length_le (by simp)]
      simp only [BitVec.ofNat_toNat, BitVec.setWidth_eq]; rfl
    rw [hw, flatMap_take_store (by decide) (fun x => leBytes_ofNat 64 x.toNat)]
    rfl
  | rmd160 =>
    have hw : serialise .rmd160 s = (s.toList.take 5).flatMap fun x => leBytes (BitVec.ofNat 32 x.toNat) := by
      rw [store_take_five]; rfl
    rw [hw, flatMap_take_store (by decide) (fun x => leBytes_ofNat 32 x.toNat)]
    rfl

theorem digest_eq_digestBytes (a : Alg) (c : Context) : digest a c = digestBytes a c.store := by
  have hle : digestSize a ≤ (serialise (familyOf a) c.store).length := by
    rw [serialise_length]; cases a <;> decide
  rw [digest, serialise_eq_map_digestByte, ← List.map_take, List.take_range, min_eq_left hle]
  rfl

/-! ### The paddings (R241, R333 to R335) -/

theorem mdZeros_eq_mdZeroCount {a : Alg} (hf : familyOf a ≠ .keccak) {b : Nat} (hb : b < blockSize a) :
    mdZeros a b = mdZeroCount a b := by
  have hge := blockSize_ge a
  have hle := lengthFieldSize_le (familyOf a)
  have hlf : 0 < lengthFieldSize (familyOf a) := by
    cases hfam : familyOf a with
    | keccak => exact absurd hfam hf
    | sha2_32 | sha2_64 | rmd160 => decide
  simp only [mdZeros, mdZeroCount]
  generalize lengthFieldSize (familyOf a) = lf at *
  generalize blockSize a = bs at *
  split
  · rw [Nat.mod_eq_of_lt (show b + 1 < bs by omega), Nat.sub_add_comm (by omega), Nat.add_mod_right,
      Nat.mod_eq_of_lt (by omega)]
  · by_cases hlast : b + 1 = bs
    · rw [hlast, Nat.mod_self, Nat.sub_zero, Nat.add_mod_right, Nat.mod_eq_of_lt (by omega)]
      omega
    · rw [Nat.mod_eq_of_lt (show b + 1 < bs by omega), Nat.mod_eq_of_lt (by omega)]

/-- What MDPad appends is the whole-message padding (R333). -/
theorem mdPadding_eq_padding (k : KeccakSuffix) {a : Alg} (hf : familyOf a ≠ .keccak) {b : Nat}
    (hb : b < blockSize a) (count : Word64) : mdPadding a b count = padding k a count.toNat b := by
  rw [mdPadding, mdZeros_eq_mdZeroCount hf hb, lenField_eq_lengthBytes, padding]
  cases hfam : familyOf a with
  | keccak => exact absurd hfam hf
  | sha2_32 | sha2_64 | rmd160 => rfl

theorem modify_append_length {α : Type} (f : α → α) (l r : List α) (i : Nat) :
    (l ++ r).modify (l.length + i) f = l ++ r.modify i f := by
  induction l with
  | nil => simp
  | cons x l ih => rw [List.length_cons, Nat.add_right_comm, List.cons_append, List.modify_succ_cons, ih]; rfl

theorem zeros_modify_last (z : Nat) (v : Byte) : (zeros (z + 1)).modify z (· ^^^ v) = zeros z ++ [v] := by
  have h := modify_append_length (· ^^^ v) (zeros z) [0x00#8] 0
  rw [zeros_length, Nat.add_zero] at h
  rw [show zeros (z + 1) = zeros z ++ [0x00#8] from List.replicate_succ', h]
  simp

/-- KeccakPad's block is the buffered bytes and the whole-message padding (R241). -/
theorem keccakPadBlock_eq_padding (k : KeccakSuffix) {a : Alg} (hf : familyOf a = .keccak) {tail : Bytes}
    (hb : tail.length < blockSize a) (n : Nat) :
    keccakPadBlock k (blockSize a) tail = tail ++ padding k a n tail.length := by
  obtain ⟨z, hz⟩ := Nat.exists_eq_add_of_lt hb
  have hsuffix : (tail ++ zeros (z + 1)).modify tail.length (· ^^^ suffixByte k)
      = tail ++ suffixByte k :: zeros z := by
    have h := modify_append_length (· ^^^ suffixByte k) tail (zeros (z + 1)) 0
    simpa [zeros, List.replicate_succ] using h
  have hblock : keccakPadBlock k (blockSize a) tail
      = tail ++ (suffixByte k :: zeros z).modify z (· ^^^ 0x80#8) := by
    rw [keccakPadBlock, hz, Nat.add_assoc, Nat.add_sub_cancel_left, hsuffix, ← modify_append_length,
      Nat.add_sub_assoc (by omega), Nat.add_sub_cancel]
  rw [hblock, padding, hf, hz]
  cases z with
  | zero => simp [zeros]
  | succ z =>
    have hrest : tail.length + (z + 1) + 1 - tail.length - 2 = z := by omega
    dsimp only
    rw [if_neg (by omega), hrest, List.modify_succ_cons, zeros_modify_last]
    rfl

/-- The padding fills the last block, or the last two (R335). -/
theorem padding_length (k : KeccakSuffix) {a : Alg} {b : Nat} (hb : b < blockSize a) (count : Word64) :
    b + (padding k a count.toNat b).length = padBlocks a b * blockSize a := by
  by_cases hf : familyOf a = .keccak
  · simp only [padding, padBlocks, hf]
    split
    · simp; omega
    · simp; omega
  · rw [← mdPadding_eq_padding k hf hb, mdPadding_length hf hb, padBlocks]
    cases hfam : familyOf a with
    | keccak => exact absurd hfam hf
    | sha2_32 | sha2_64 | rmd160 => dsimp only; split <;> simp

/-- Padding a context processes the buffered bytes and the padding, block by block (R332). -/
theorem padCtx_store (k : KeccakSuffix) {a : Alg} {c : Context} (h : c.alg = some a)
    (hb : c.buflen.toNat < blockSize a) :
    (padCtx k a c).store = afterBlocks a c.store (padBlocks a c.buflen.toNat)
      (buffered c ++ padding k a c.count.toNat c.buflen.toNat) := by
  have hlen := buffered_length_of_lt hb
  have hpad := padding_length k hb c.count
  by_cases hf : familyOf a = .keccak
  · have hone : padBlocks a c.buflen.toNat = 1 := by simp only [padBlocks, hf]
    rw [hone, Nat.one_mul] at hpad
    have hkp : padCtx k a c = keccakPad k a c := by rw [padCtx, hf]
    have hblk := keccakPadBlock_eq_padding k hf (tail := buffered c) (by rw [hlen]; exact hb) c.count.toNat
    rw [hlen] at hblk
    rw [hone, afterBlocks_one _ (by rw [List.length_append, hlen, hpad]), ← hblk, hkp, keccakPad_store k h]
  · have hmd : padCtx k a c = mdPad a c := by
      unfold padCtx
      cases hfam : familyOf a with
      | keccak => exact absurd hfam hf
      | sha2_32 | sha2_64 | rmd160 => rfl
    rw [hmd, mdPad_eq_absorb hf h hb, mdPadding_eq_padding k hf hb]
    exact (absorb_blockwise h hb (by rw [hpad, Nat.mul_div_cancel _ (blockSize_pos a)])).1

/-! ### The streaming hash is the whole-message hash (R344) -/

theorem initCtx_buflen_lt (a : Alg) : (initCtx a).buflen.toNat < blockSize a := by
  simpa using blockSize_pos a

theorem feed_initCtx_buflen (a : Alg) (m : Bytes) :
    (feed (initCtx a) m).buflen.toNat = m.length % blockSize a := by
  simpa using absorb_buflen_mod (initCtx_alg a) (initCtx_buflen_lt a) m

theorem feed_initCtx_count {a : Alg} {m : Bytes} (hm : m.length ≤ maxLen a) :
    (feed (initCtx a) m).count.toNat = m.length := by
  simpa using feed_count_toNat (c := initCtx a) (a := a) (m := m) (by simpa using hm)

/-- A fresh context fed m has processed the whole blocks of m and buffers the rest. -/
theorem feed_initCtx_blockwise (a : Alg) (m : Bytes) :
    (feed (initCtx a) m).store = afterBlocks a (ivStore a) (m.length / blockSize a) m ∧
      buffered (feed (initCtx a) m) = m.drop (m.length / blockSize a * blockSize a) := by
  have h := absorb_blockwise (initCtx_alg a) (initCtx_buflen_lt a) (m := m)
    (n := m.length / blockSize a) (by simp)
  rwa [buffered_of_buflen_zero (initCtx_buflen a), List.nil_append] at h

/-- The padded message has the whole blocks of m and those that the padding ends (R335). -/
theorem padded_blocks (k : KeccakSuffix) {a : Alg} {m : Bytes} (hm : m.length ≤ maxLen a) :
    (m ++ padding k a m.length (m.length % blockSize a)).length / blockSize a
      = m.length / blockSize a + padBlocks a (m.length % blockSize a) := by
  have hbs := blockSize_pos a
  have hpad := padding_length k (Nat.mod_lt m.length hbs) (feed (initCtx a) m).count
  rw [feed_initCtx_count hm] at hpad
  have hdiv := Nat.div_add_mod' m.length (blockSize a)
  rw [List.length_append, ← hdiv, Nat.add_assoc, hdiv, hpad, ← Nat.add_mul, Nat.mul_div_cancel _ hbs]

/-- A fresh context fed m, then finalized, answers the hash of the padded whole message. -/
theorem hashFn_eq_wholeHash (k : KeccakSuffix) {a : Alg} {m : Bytes} (hm : m.length ≤ maxLen a) :
    hashFn k a m = wholeHash k a m := by
  have ha : (feed (initCtx a) m).alg = some a := by simp
  have hlt : (feed (initCtx a) m).buflen.toNat < blockSize a :=
    absorb_buflen_lt (initCtx_alg a) (initCtx_buflen_lt a) m
  have hwhole := Nat.div_mul_le_self m.length (blockSize a)
  obtain ⟨hstore, hbuf⟩ := feed_initCtx_blockwise a m
  calc hashFn k a m
      = digestBytes a (padCtx k a (feed (initCtx a) m)).store := by
        rw [hashFn, finalizeDigest_eq k ha, digest_eq_digestBytes, finalizeCtx_eq k ha]
    _ = digestBytes a (afterBlocks a (afterBlocks a (ivStore a) (m.length / blockSize a) m)
          (padBlocks a (m.length % blockSize a))
          (m.drop (m.length / blockSize a * blockSize a)
            ++ padding k a m.length (m.length % blockSize a))) := by
        rw [padCtx_store k ha hlt, hstore, hbuf, feed_initCtx_buflen, feed_initCtx_count hm]
    _ = wholeHash k a m := by
        rw [wholeHash, padded_blocks k hm, afterBlocks_add, afterBlocks_append _ _ hwhole,
          List.drop_append_of_le_length hwhole]

/-! ### Commands over the channel (R82, R100) -/

/-- A transaction assembled with its reserved fields in order and a payload of the right length. -/
theorem decode_packCw {op : Opcode} {alg : BitVec 4} {outlen : BitVec 7} {full : BitVec 1} {arg : Word64}
    {payload : Bytes} (hl : payload.length = if takesPayload op then arg.toNat else 0)
    (hr : reservedNonzero op (packCw op alg outlen full) arg = false) :
    decode ⟨packCw op alg outlen full, arg, payload⟩
      = decodeOperands op ⟨packCw op alg outlen full, arg, payload⟩ := by
  rw [decode_of_opcode (op := op) (by simpa [payloadLength] using hl) (by simp), hr]
  rfl

/-- FULL = 1 goes with OUTLEN = 0 (R111), so the output length uses no reserved value. -/
theorem outlenOf_of_fullOf {l : OutLen} (h : fullOf l = 1#1) : outlenOf l = 0#7 := by
  cases l with
  | full => rfl
  | bytes n => exact absurd h (by decide : (0#1 : BitVec 1) ≠ 1#1)

/-- A well-formed command is read back from its own encoding: its fields are in order, its payload has the
required length, and each operand's code is read back. -/
theorem decode_encode {i : Instr} (hi : i.wf = true) : decode (encode i) = .ok i := by
  cases i with
  | init a =>
    rw [encode, decode_packCw rfl (by simp [reservedNonzero, usesAlg, usesOut, usesArg])]
    simp [decodeOperands]
  | update m =>
    exact decode_packCw (countArg_toNat hi).symm (by simp [reservedNonzero, usesAlg, usesOut, usesArg])
  | final l =>
    rw [encode, decode_packCw rfl
      (by simpa [reservedNonzero, usesAlg, usesOut, usesArg] using outlenOf_of_fullOf)]
    simp [decodeOperands]
  | rdreg r =>
    rw [encode, decode_packCw rfl (by simp [reservedNonzero, usesAlg, usesOut, usesArg])]
    simp [decodeOperands]
  | hmacInit a key =>
    rw [encode, decode_packCw (countArg_toNat hi).symm
      (by simp [reservedNonzero, usesAlg, usesOut, usesArg])]
    simp [decodeOperands]
  | hmacUpdate m =>
    exact decode_packCw (countArg_toNat hi).symm (by simp [reservedNonzero, usesAlg, usesOut, usesArg])
  | hmacFinal l =>
    rw [encode, decode_packCw rfl
      (by simpa [reservedNonzero, usesAlg, usesOut, usesArg] using outlenOf_of_fullOf)]
    simp [decodeOperands]
  | hmacReinit => exact decode_packCw rfl (by simp [reservedNonzero, usesAlg, usesOut, usesArg])

/-- A command's effect only carries the inputs still to come along. -/
theorem effect_send (i : Instr) (is : List Instr) (s : State) :
    effect i (send is s) = { effect i s with after := send is (effect i s).after } := by
  cases i <;> rfl

/-- No command reads or writes the inputs still to come. -/
theorem exec_send {i : Instr} {s t : State} (h : exec i s = .next t) (is : List Instr) :
    exec i (send is s) = .next (send is t) := by
  rw [exec_eq_complete, effect_send]
  obtain ⟨hok, rfl⟩ | ⟨herr, rfl⟩ := exec_cases h
  · simp only [hok, complete_ok]
    rfl
  · rw [complete_error herr]
    rfl

theorem send_nil (s : State) : send [] s = s := by
  rw [send, List.map_nil, List.append_nil]

theorem commandWrites_inputs (i : Instr) (s : State) : (commandWrites i s).inputs = s.inputs :=
  commandWrites_induct (P := (·.inputs = s.inputs)) rfl fun _ => effect_after_inputs i s

theorem step_send {s : State} (hin : s.inputs = []) {i : Instr} (hi : i.wf = true) (is : List Instr) :
    step (send (i :: is) s) = exec i (send is s) := by
  rw [stepRunsTheDecodedCommand (send (i :: is) s) _ _ i (by rw [send_inputs, hin]; rfl) (decode_encode hi)]
  simp [send, hin]

theorem run_succ_of_next {s t : State} (h : step s = .next t) (n : Nat) :
    Host.Core.run Sys2Proof.core (n + 1) s = Host.Core.run Sys2Proof.core n t := by
  have hcore : Sys2Proof.core.step s = .next t := h
  simp only [Host.Core.run, hcore]

/-- Commands sent over an empty channel run one after another, one in each step. -/
theorem run_send {is : List Instr} (hwf : ∀ i ∈ is, i.wf = true) {s : State} (hin : s.inputs = []) :
    Host.Core.run Sys2Proof.core is.length (send is s) = runCommands is s := by
  induction is generalizing s with
  | nil => rw [send_nil]; rfl
  | cons i is ih =>
    obtain ⟨hi, his⟩ := List.forall_mem_cons.mp hwf
    have hstep := (step_send hin hi is).trans (exec_send (exec_eq_respond i s) is)
    rw [List.length_cons, run_succ_of_next hstep, runCommands_cons]
    exact ih his (by rw [respond_inputs, commandWrites_inputs, hin])

/-! ### HASH (R114, R344) -/

/-- FINAL in ABSORBING with L at most DS. -/
theorem exec_final {s : State} {a : Alg} {l : OutLen} (ha : s.ctx.alg = some a)
    (hp : s.ctx.phase = .absorbing) (hl : outputLength (some a) l ≤ digestSize a) :
    exec (.final l) s = .next (succeed 0#64
      ((finalizeDigest s.keccakSuffix s.ctx).take (outputLength (some a) l))
      { s with ctx := finalizeCtx s.keccakSuffix s.ctx }) := by
  rw [← ha]
  exact exec_of_ok (i := .final l) (finalStatus_eq_ok_iff.mpr ⟨hp, by rwa [ha]⟩)

/-- The three commands of HASH answer OK, OK and the streaming hash, from every state. -/
theorem runCommands_pseudoHash (s : State) {a : Alg} {m : Bytes} (hm : m.length ≤ maxLen a) :
    ∃ t, runCommands (pseudoHash a m) s = .next t ∧
      t.responses = s.responses ++
        [⟨.ok, 0#64, []⟩, ⟨.ok, 0#64, []⟩, ⟨.ok, 0#64, hashFn s.keccakSuffix a m⟩] ∧
      t.hm = s.hm := by
  have hfull : (finalizeDigest s.keccakSuffix (feed (initCtx a) m)).take (outputLength (some a) .full)
      = hashFn s.keccakSuffix a m :=
    List.take_of_length_le (le_of_eq (hashFn_length ..))
  have hinit : exec (.init a) s = .next (succeed 0#64 [] { s with ctx := initCtx a }) := rfl
  have hupdate := exec_update (s := succeed 0#64 [] { s with ctx := initCtx a }) (initCtx_alg a)
    (initCtx_phase a) (m := m) (by simpa using hm)
  refine ⟨_, runCommands_cons_eq_next hinit (runCommands_cons_eq_next hupdate (runCommands_cons_eq_next
    (exec_final (a := a) (l := .full) (by simp) (by simp) le_rfl) rfl)), ?_, rfl⟩
  simp [hfull]

/-- Settles O25: the commands sent run one in each step (`run_send`), HASH answers the streaming hash
(`runCommands_pseudoHash`), and that is the hash of the padded whole message (`hashFn_eq_wholeHash`). -/
theorem oneShotHashIsTheWholeMessageHash : Obligations.OneShotHashIsTheWholeMessageHash := by
  intro s a m hin hm
  have hwf : ∀ i ∈ pseudoHash a m, i.wf = true := by
    have hfits : payloadFits m = true := decide_eq_true (lt_of_le_of_lt hm (maxLen_lt a))
    simp [pseudoHash, Instr.wf, hfits]
  rw [← hashFn_eq_wholeHash s.keccakSuffix hm]
  obtain ⟨t, hrun, hresp, hhm⟩ := runCommands_pseudoHash s hm
  exact ⟨t, (run_send hwf hin).trans hrun, hresp, hhm⟩

end Sys2Proof.Machine
end

section
/-! PROOFS. Encoding (30_encoding.md): decode and encode are inverse to each other, what a step makes of a
transaction that is no command, what every command answers, and HMAC against the hash of the whole message. -/

namespace Sys2Proof.Machine

open Sys2Proof.Claims

/-! ### Encoding and decoding (R101 to R105, R109, R111) -/

/-- Settles O1: by `decode_encode`, one case per command. -/
theorem decodeReadsBackEncode : Obligations.DecodeReadsBackEncode := fun _ => decode_encode

/-- What the reserved-field check of R109 lets pass: RSV is 0, every unused field is 0, and FULL = 1 goes with
OUTLEN = 0. -/
theorem reservedNonzero_eq_false_iff {op : Opcode} {cw : Word32} {arg : Word64} :
    reservedNonzero op cw arg = false ↔
      rsvField cw = 0#12 ∧ (usesAlg op = false → algField cw = 0#4) ∧
      (usesOut op = false → outlenField cw = 0#7 ∧ fullField cw = 0#1) ∧
      (usesArg op = false → arg = 0#64) ∧ (fullField cw = 1#1 → outlenField cw = 0#7) := by
  simp only [reservedNonzero, Bool.or_eq_false_iff, Bool.and_eq_false_imp, and_assoc]
  grind

/-- The decode of a command, taken apart: its opcode is assigned, its payload has that opcode's length, its
fields are in order, and the operands are read. -/
theorem decode_eq_ok {t : Transaction} {i : Instr} (h : decode t = .ok i) :
    ∃ op, opcField t.cw = opcodeCode op ∧
      t.payload.length = (if takesPayload op then t.arg.toNat else 0) ∧
      reservedNonzero op t.cw t.arg = false ∧ decodeOperands op t = .ok i := by
  by_cases hl : t.payload.length = payloadLength t.cw t.arg
  · cases hop : opcodeOfCode (opcField t.cw) with
    | none => simp [decode_of_badOpcode hl hop] at h
    | some op =>
      rw [decode_of_opcode hl hop] at h
      split at h
      next => cases h
      next hr =>
        exact ⟨op, opcodeOfCode_eq_some hop, by rw [hl, payloadLength, hop], eq_false_of_ne_true hr, h⟩
  · simp [decode_of_badLength hl] at h

theorem fullOf_outLenOfFields (cw : Word32) : fullOf (outLenOfFields cw) = fullField cw := by
  unfold outLenOfFields
  by_cases hfull : fullField cw = 1#1
  · rw [if_pos hfull, hfull, fullOf]
  · rw [if_neg hfull, fullOf, (BitVec.eq_zero_or_eq_one _).resolve_right hfull]

/-- The output length is read without loss where FULL = 1 goes with OUTLEN = 0 (R111). -/
theorem outlenOf_outLenOfFields {cw : Word32} (h : fullField cw = 1#1 → outlenField cw = 0#7) :
    outlenOf (outLenOfFields cw) = outlenField cw := by
  unfold outLenOfFields
  by_cases hfull : fullField cw = 1#1
  · rw [if_pos hfull, outlenOf, h hfull]
  · rw [if_neg hfull, outlenOf]

/-- A payload whose length is ARG fits ARG, and ARG is its byte count (R71, R103). -/
theorem payloadFits_of_length_eq {arg : Word64} {payload : Bytes} (h : payload.length = arg.toNat) :
    payloadFits payload = true ∧ countArg payload = arg := by
  refine ⟨decide_eq_true (h ▸ arg.isLt), ?_⟩
  rw [countArg, h, BitVec.ofNat_toNat, BitVec.setWidth_eq]

/-- Operands read from fields that are in order are all that the transaction holds: each field is an operand's
code or 0, and the payload is an operand or empty. -/
theorem encode_of_decodeOperands {op : Opcode} {cw : Word32} {arg : Word64} {payload : Bytes} {i : Instr}
    (hop : opcField cw = opcodeCode op) (hlen : payload.length = if takesPayload op then arg.toNat else 0)
    (hr : reservedNonzero op cw arg = false) (hd : decodeOperands op ⟨cw, arg, payload⟩ = .ok i) :
    encode i = ⟨cw, arg, payload⟩ ∧ i.wf = true := by
  obtain ⟨hrsv, halg, hout, harg, hfull⟩ := reservedNonzero_eq_false_iff.mp hr
  have hcw := packCw_fields hop hrsv
  have hcwAlg (hu : usesOut op = false) : packCw op (algField cw) 0#7 0#1 = cw := by
    obtain ⟨houtlen, hfullz⟩ := hout hu
    rwa [houtlen, hfullz] at hcw
  have hcwBare (ha : usesAlg op = false) (hu : usesOut op = false) : packCw op 0#4 0#7 0#1 = cw :=
    halg ha ▸ hcwAlg hu
  cases op with
  | init =>
    obtain rfl := harg rfl
    obtain rfl := List.eq_nil_of_length_eq_zero hlen
    simp only [decodeOperands] at hd
    split at hd
    next => cases hd
    next a hcode =>
      cases hd
      exact ⟨by simp [encode, ← algOfCode_eq_some hcode, hcwAlg rfl], rfl⟩
  | hmacInit =>
    obtain ⟨hfits, hcount⟩ := payloadFits_of_length_eq hlen
    simp only [decodeOperands] at hd
    split at hd
    next => cases hd
    next a hcode =>
      cases hd
      exact ⟨by simp [encode, ← algOfCode_eq_some hcode, hcwAlg rfl, hcount], hfits⟩
  | rdreg =>
    obtain rfl := List.eq_nil_of_length_eq_zero hlen
    simp only [decodeOperands] at hd
    split at hd
    next => cases hd
    next r hreg =>
      cases hd
      exact ⟨by simp [encode, hcwBare rfl rfl, regOfNumber_eq_some hreg], rfl⟩
  | update | hmacUpdate =>
    obtain ⟨hfits, hcount⟩ := payloadFits_of_length_eq hlen
    cases hd
    exact ⟨by simp [encode, hcwBare rfl rfl, hcount], hfits⟩
  | final | hmacFinal =>
    obtain rfl := harg rfl
    obtain rfl := List.eq_nil_of_length_eq_zero hlen
    cases hd
    rw [halg rfl, ← outlenOf_outLenOfFields hfull, ← fullOf_outLenOfFields] at hcw
    exact ⟨by simp [encode, hcw], rfl⟩
  | hmacReinit =>
    obtain rfl := harg rfl
    obtain rfl := List.eq_nil_of_length_eq_zero hlen
    cases hd
    exact ⟨by simp [encode, hcwBare rfl rfl], rfl⟩

/-- Settles O2: a decoded command's operands are all that its transaction holds. -/
theorem encodeReadsBackDecode : Obligations.EncodeReadsBackDecode := by
  intro t i h
  obtain ⟨op, hop, hlen, hr, hd⟩ := decode_eq_ok h
  exact encode_of_decodeOperands hop hlen hr hd

/-- Settles O3: each printed word is the encoding of its command, which `decode_encode` reads back. -/
theorem specCommandWordsDecode : Obligations.SpecCommandWordsDecode :=
  ⟨decode_encode (i := .init .sha256) rfl,
    decode_encode (i := .update [0x61, 0x62, 0x63]) rfl,
    decode_encode (i := .final .full) rfl,
    decode_encode (i := .final (.bytes 16)) rfl,
    decode_encode (i := .rdreg (.ctxBufw 17)) rfl,
    decode_encode (i := .hmacInit .sha512 [0x4a, 0x65, 0x66, 0x65]) rfl,
    decode_encode (i := .hmacUpdate [0x61]) rfl,
    decode_encode (i := .hmacFinal (.bytes 16)) rfl,
    decode_encode (i := .hmacReinit) rfl⟩

/-- Reading operands never finds a payload of the wrong length. -/
theorem decodeOperands_ne_payloadLength (op : Opcode) (t : Transaction) :
    decodeOperands op t ≠ .error .payloadLength := by
  cases op with
  | init | rdreg | hmacInit =>
    unfold decodeOperands
    dsimp only
    split <;> simp
  | update | final | hmacUpdate | hmacFinal | hmacReinit => simp [decodeOperands]

theorem decode_eq_payloadLength_iff {t : Transaction} :
    decode t = .error .payloadLength ↔ t.payload.length ≠ payloadLength t.cw t.arg := by
  refine ⟨fun h hl => ?_, decode_of_badLength⟩
  cases hop : opcodeOfCode (opcField t.cw) with
  | none => simp [decode_of_badOpcode hl hop] at h
  | some op =>
    rw [decode_of_opcode hl hop] at h
    split at h
    · cases h
    · exact decodeOperands_ne_payloadLength op t h

theorem opcField_toNat (cw : Word32) : (opcField cw).toNat = cw.toNat % 256 := by
  simp [opcField]

/-- R103's payload length, by the opcode's number. -/
theorem payloadLength_eq (cw : Word32) (arg : Word64) :
    payloadLength cw arg = if (opcField cw).toNat ∈ [0x02, 0x11, 0x12] then arg.toNat else 0 := by
  cases hop : opcodeOfCode (opcField cw) with
  | some op =>
    rw [payloadLength, hop, opcodeOfCode_eq_some hop]
    cases op <;> rfl
  | none =>
    have hmem : (opcField cw).toNat ∉ [0x02, 0x11, 0x12] := by
      intro hmem
      simp only [List.mem_cons, List.not_mem_nil, or_false] at hmem
      rcases hmem with h | h | h <;> simp [opcodeOfCode, h] at hop
    rw [payloadLength, hop, if_neg hmem]

theorem payloadAsRequired_iff {t : Transaction} :
    payloadAsRequired t ↔ t.payload.length = payloadLength t.cw t.arg := by
  rw [payloadLength_eq, opcField_toNat]
  rfl

/-! ### The step on a transaction that is no command (R416, R472) -/

/-- Settles O9: the step takes the transaction off the channel and raises the failed check's status. -/
theorem stepAnswersADecodeError : Obligations.StepAnswersADecodeError := by
  intro s t rest st hin hd
  rw [step_command hin, transact_error hd]
  rfl

/-- A step is refused exactly on a transaction that is no command (R472): idling, a reset, an error response and
a command all answer a next state. -/
theorem step_eq_refused_iff {s : State} {r : Refusal} :
    step s = .refused r ↔
      r = .payloadLength ∧
        ∃ t rest, s.inputs = .command t :: rest ∧ decode t = .error .payloadLength := by
  cases hin : s.inputs with
  | nil => simp [step_idle hin]
  | cons x rest =>
    cases x with
    | reset p => simp [step_reset hin]
    | command t =>
      rw [step_command hin]
      cases hd : decode t with
      | error e =>
        cases e with
        | payloadLength => simp [transact, hd, eq_comm]
        | status st => simp [transact_error hd, hd]
      | ok i =>
        obtain ⟨u, hu⟩ := exec_isNext i { s with inputs := rest }
        simp [transact_ok hd, hu, hd]

/-- Settles O10: there are no faults, and a transaction is no command exactly when its payload breaks R103. -/
theorem stepStopsOnlyOnPayloadMismatch : Obligations.StepStopsOnlyOnPayloadMismatch := by
  refine fun s => ⟨(nomatch ·), fun r => ?_⟩
  simp only [step_eq_refused_iff, decode_eq_payloadLength_iff, payloadAsRequired_iff, ne_eq]

/-! ### What a command answers (R100, R107) -/

theorem commandResponse_value_eq_zero {i : Instr} {s : State} (h : (effect i s).value = 0#64) :
    (commandResponse i s).value = 0#64 := by
  unfold commandResponse
  split
  · exact h
  · rfl

theorem commandResponse_out_eq_nil {i : Instr} {s : State} (h : (effect i s).out = []) :
    (commandResponse i s).out = [] := by
  unfold commandResponse
  split
  · exact h
  · rfl

/-- Only RDREG answers a value (R107). -/
theorem commandResponse_value_ne_zero {i : Instr} {s : State} (h : (commandResponse i s).value ≠ 0) :
    ∃ reg, i = .rdreg reg := by
  cases i with
  | rdreg reg => exact ⟨reg, rfl⟩
  | init _ | update _ | final _ | hmacInit _ _ | hmacUpdate _ | hmacFinal _ | hmacReinit =>
    exact absurd (commandResponse_value_eq_zero rfl) h

/-- Only FINAL and HMAC_FINAL answer bytes (R107). -/
theorem commandResponse_out_ne_nil {i : Instr} {s : State} (h : (commandResponse i s).out ≠ []) :
    ∃ l, i = .final l ∨ i = .hmacFinal l := by
  cases i with
  | final l => exact ⟨l, .inl rfl⟩
  | hmacFinal l => exact ⟨l, .inr rfl⟩
  | init _ | update _ | rdreg _ | hmacInit _ _ | hmacUpdate _ | hmacReinit =>
    exact absurd (commandResponse_out_eq_nil rfl) h

/-- Settles O41: a command is its writes, which leave the channel, and then its one response
(`exec_eq_respond`). -/
theorem everyCommandAnswersOnce : Obligations.EveryCommandAnswersOnce := fun i s =>
  ⟨_, commandResponse i s, exec_eq_respond i s, by rw [respond_responses, commandWrites_responses],
    by rw [respond_inputs, commandWrites_inputs], commandResponse_value_ne_zero, commandResponse_out_ne_nil⟩

/-! ### FINAL and HMAC_FINAL (R342, R372) -/

/-- Settles O20: FINAL passes its checks (`exec_final`); L is DS or OUTLEN (R105). -/
theorem finalReturnsTheDigest : Obligations.FinalReturnsTheDigest :=
  fun _ _ l ha hp hl => (exec_final ha hp hl).trans (by cases l <;> rfl)

/-- HMAC_FINAL in ABSORBING with L at most DS. -/
theorem exec_hmacFinal {s : State} {a : Alg} {l : OutLen} (ha : s.hm.alg = some a)
    (hp : s.hm.phase = .absorbing) (hl : outputLength (some a) l ≤ digestSize a) :
    exec (.hmacFinal l) s = .next (succeed 0#64
      ((hmacOut s.keccakSuffix s.hm).take (outputLength (some a) l))
      { s with hm := hmacFinalize s.keccakSuffix s.hm }) := by
  rw [← ha]
  exact exec_of_ok (i := .hmacFinal l) (finalStatus_eq_ok_iff.mpr ⟨hp, by rwa [ha]⟩)

/-- Settles O30: HMAC_FINAL passes its checks (`exec_hmacFinal`); L is DS or OUTLEN (R105). -/
theorem hmacFinalReturnsTheMac : Obligations.HmacFinalReturnsTheMac :=
  fun _ _ l ha hp hl => (exec_hmacFinal ha hp hl).trans (by cases l <;> rfl)

/-! ### HMAC (R115, R374) -/

/-- A key that HMAC_INIT takes is normalised as over the whole-message hash: only a key longer than a block is
hashed, and then it is short enough (R360, R370). -/
theorem keyNorm_eq_wholeKey (k : KeccakSuffix) {a : Alg} {key : Bytes} (hk : keyTaken a key) :
    keyNorm k a key = wholeKey k a key := by
  unfold keyNorm wholeKey
  by_cases hlong : key.length > blockSize a
  · have hmax : key.length ≤ maxLen a := hk.resolve_left (by omega)
    simp only [if_pos hlong, hashFn_length]
    rw [hashFn_eq_wholeHash k hmax]
  · simp only [if_neg hlong]

theorem loadKey_inner_count (k : KeccakSuffix) (a : Alg) (key : Bytes) :
    (loadKey k a key).inner.count.toNat = blockSize a := fed_pad_count _

/-- The MAC of a freshly loaded key and a message is the nested streaming hash: feeding a pad and then a byte
string is feeding their concatenation (R363). -/
theorem hmacOut_loadKey (k : KeccakSuffix) (a : Alg) (key m : Bytes) :
    hmacOut k { loadKey k a key with inner := feed (loadKey k a key).inner m }
      = hashFn k a (xorRep (keyNorm k a key) 0x5c#8
          ++ hashFn k a (xorRep (keyNorm k a key) 0x36#8 ++ m)) := by
  simp only [hmacOut, outerFed, loadKey_inner, loadKey_outer, hashFn, feed_append]

/-- The nested streaming hash is the HMAC over the whole-message hash: the inner message fits below MAXLEN by
hypothesis, the outer one because a block and a digest do (R374). -/
theorem hmacOut_loadKey_eq_wholeHmac (k : KeccakSuffix) {a : Alg} {key m : Bytes} (hk : keyTaken a key)
    (hm : blockSize a + m.length ≤ maxLen a) :
    hmacOut k { loadKey k a key with inner := feed (loadKey k a key).inner m } = wholeHmac k a key m := by
  have hpad (b : Byte) : (xorRep (keyNorm k a key) b).length = blockSize a := by
    rw [xorRep_length, keyNorm_length]
  have hinner : (xorRep (keyNorm k a key) 0x36#8 ++ m).length ≤ maxLen a := by
    rwa [List.length_append, hpad]
  have houter : (xorRep (keyNorm k a key) 0x5c#8
      ++ hashFn k a (xorRep (keyNorm k a key) 0x36#8 ++ m)).length ≤ maxLen a := by
    have hds : digestSize a ≤ blockSize a := (digestSize_le a).trans (blockSize_ge a)
    have hmax := two_blockSize_le_maxLen a
    rw [List.length_append, hpad, hashFn_length]
    omega
  rw [hmacOut_loadKey, hashFn_eq_wholeHash k houter, hashFn_eq_wholeHash k hinner,
    keyNorm_eq_wholeKey k hk, wholeHmac]

/-- The three commands of HMAC answer OK, OK and the leading L bytes of the MAC, from every state. -/
theorem runCommands_pseudoHmac (s : State) {a : Alg} {key m : Bytes} {l : OutLen} (hk : keyTaken a key)
    (hm : blockSize a + m.length ≤ maxLen a) (hl : outputLength (some a) l ≤ digestSize a) :
    ∃ t, runCommands (pseudoHmac a key m l) s = .next t ∧
      t.responses = s.responses ++ [⟨.ok, 0#64, []⟩, ⟨.ok, 0#64, []⟩,
        ⟨.ok, 0#64, (wholeHmac s.keccakSuffix a key m).take (outputLength (some a) l)⟩] := by
  have hupdate := exec_hmacUpdate (s := succeed 0#64 [] { s with hm := loadKey s.keccakSuffix a key })
    (loadKey_alg ..) (loadKey_phase ..) (m := m)
    (by rwa [succeed_hm, loadKey_inner_count])
  refine ⟨_, runCommands_cons_eq_next (exec_hmacInit hk) (runCommands_cons_eq_next hupdate
    (runCommands_cons_eq_next (exec_hmacFinal (a := a) rfl rfl hl) rfl)), ?_⟩
  rw [← hmacOut_loadKey_eq_wholeHmac s.keccakSuffix hk hm]
  simp

theorem wholeHmac_length (k : KeccakSuffix) (a : Alg) (key m : Bytes) :
    (wholeHmac k a key m).length = digestSize a := by
  simp [wholeHmac, wholeHash, digestBytes]

/-- Settles O33: HMAC answers the leading L bytes of the whole-message MAC (`runCommands_pseudoHmac`), and a
full output takes all DS of them. -/
theorem hmacIsTheNestedHash : Obligations.HmacIsTheNestedHash := by
  intro s a key m hk hm
  have hfull : (wholeHmac s.keccakSuffix a key m).take (outputLength (some a) .full)
      = wholeHmac s.keccakSuffix a key m :=
    List.take_of_length_le (le_of_eq (wholeHmac_length ..))
  rw [← hfull]
  exact runCommands_pseudoHmac s hk hm le_rfl

end Sys2Proof.Machine
end

section
/-! PROOFS. The laws of the word primitives (40_primitives.md): the rotations bit by bit, and the two byte
orders read back. -/

namespace Sys2Proof.Machine

/-! ### Rotations (R140, R141), at every width -/

/-- The model's rotation is the library's: at a count divisible by w the part shifted in from above is zero. -/
theorem rotr_eq_rotateRight {w : Nat} (x : BitVec w) (n : Nat) : rotr x n = x.rotateRight n := by
  rw [rotr, BitVec.rotateRight_def]
  split
  next hk => rw [hk, Nat.sub_zero, BitVec.ushiftRight_zero, BitVec.shiftLeft_eq_zero le_rfl, BitVec.or_zero]
  next => rfl

theorem getLsbD_rotr {w i : Nat} (x : BitVec w) (n : Nat) (hi : i < w) :
    (rotr x n).getLsbD i = x.getLsbD ((i + n) % w) := by
  have hn : n % w < w := Nat.mod_lt n (by omega)
  rw [rotr_eq_rotateRight, BitVec.getLsbD_rotateRight, ← Nat.add_mod_mod]
  by_cases hlow : i < w - n % w
  · rw [Nat.mod_eq_of_lt (show i + n % w < w by omega)]
    simp [hlow, Nat.add_comm]
  · rw [Nat.mod_eq_sub_mod (show w ≤ i + n % w by omega),
      Nat.mod_eq_of_lt (show i + n % w - w < w by omega),
      show i + n % w - w = i - (w - n % w) by omega]
    simp [hlow, hi]

theorem getLsbD_rotl {w i : Nat} (x : BitVec w) (n : Nat) (hi : i < w) :
    (rotl x n).getLsbD ((i + n) % w) = x.getLsbD i := by
  have hn : n % w < w := Nat.mod_lt n (by omega)
  have hback : ((i + n) % w + (w - n % w)) % w = i := by
    calc ((i + n) % w + (w - n % w)) % w
        = (i + n % w + (w - n % w)) % w := by rw [← Nat.add_mod_mod i n w, Nat.mod_add_mod]
      _ = (i + w) % w := by rw [show i + n % w + (w - n % w) = i + w by omega]
      _ = i := by rw [Nat.add_mod_right, Nat.mod_eq_of_lt hi]
  rw [rotl, getLsbD_rotr x _ (Nat.mod_lt _ (by omega)), hback]

/-- Settles O52: `getLsbD_rotr` and `getLsbD_rotl`. -/
theorem rotationsMoveBits : Obligations.RotationsMoveBits :=
  fun _ x n _ hi => ⟨getLsbD_rotr x n hi, getLsbD_rotl x n hi⟩

theorem rotr_rotl {w : Nat} (x : BitVec w) (n : Nat) : rotr (rotl x n) n = x := by
  refine BitVec.eq_of_getLsbD_eq fun i hi => ?_
  rw [getLsbD_rotr _ n hi, getLsbD_rotl x n hi]

theorem rotr_xor {w : Nat} (x y : BitVec w) (n : Nat) : rotr x n ^^^ rotr y n = rotr (x ^^^ y) n := by
  refine BitVec.eq_of_getLsbD_eq fun i hi => ?_
  simp only [BitVec.getLsbD_xor, getLsbD_rotr _ n hi]

/-! ### Bytes (R143 to R146), at every width of whole bytes -/

theorem beWord_beBytes {w : Nat} (x : BitVec w) (h : 8 ∣ w) : beWord w (beBytes x) = x := by
  rw [beWord, beNat_beBytes x h, BitVec.ofNat_toNat, BitVec.setWidth_eq]

theorem leWord_leBytes {w : Nat} (x : BitVec w) (h : 8 ∣ w) : leWord w (leBytes x) = x := by
  rw [leWord, leNat_leBytes x h, BitVec.ofNat_toNat, BitVec.setWidth_eq]

/-- Settles O53: both widths are whole bytes, and the rotations' laws hold at every width. -/
theorem primitiveLaws : Obligations.PrimitiveLaws :=
  have h32 : 8 ∣ 32 := by decide
  have h64 : 8 ∣ 64 := by decide
  ⟨fun x => ⟨beWord_beBytes x h32, leWord_leBytes x h32⟩, fun x => ⟨beWord_beBytes x h64, leWord_leBytes x h64⟩,
    rotr_rotl, rotr_rotl, rotr_xor, rotr_xor⟩

end Sys2Proof.Machine
end

section
/-! PROOFS. SHA-2 (41_sha2.md): the choice and the majority bit by bit, the message schedule word by word, the
constant tables as root fractions, and the block functions on the inputs whose results the spec prints. -/

namespace Sys2Proof.Machine

open Sys2Proof.Claims

/-! ### Ch and Maj (R172, R173), at every width -/

/-- Ch chooses: where x has 1 the second summand's bit is 0, where it has 0 the first's. -/
theorem getLsbD_ch {w i : Nat} (x y z : BitVec w) (hi : i < w) :
    (ch x y z).getLsbD i = if x.getLsbD i then y.getLsbD i else z.getLsbD i := by
  simp only [ch, BitVec.getLsbD_xor, BitVec.getLsbD_and, BitVec.getLsbD_not, hi]
  cases x.getLsbD i <;> simp

/-- The parity of the three pairwise products is the majority: one product is 1 where two bits are 1, all three
are where all bits are. -/
theorem xor_and_pairs_iff (a b c : Bool) :
    ((a && b) ^^ (a && c) ^^ (b && c)) = true ↔ 2 ≤ a.toNat + b.toNat + c.toNat := by
  revert a b c; decide

theorem getLsbD_maj {w : Nat} (x y z : BitVec w) (i : Nat) :
    (maj x y z).getLsbD i = true ↔ 2 ≤ (x.getLsbD i).toNat + (y.getLsbD i).toNat + (z.getLsbD i).toNat := by
  simp only [maj, BitVec.getLsbD_xor, BitVec.getLsbD_and, xor_and_pairs_iff]

/-- Settles O54: `getLsbD_ch` and `getLsbD_maj`. -/
theorem chooseAndMajorityBitwise : Obligations.ChooseAndMajorityBitwise :=
  fun _ x y z i hi => ⟨getLsbD_ch x y z hi, getLsbD_maj x y z i⟩

/-! ### The message schedule (R184, R185), for both variants at once -/

section Schedule

variable {w : Nat} (v : Sha2Variant w)

/-- The right side of the schedule's recurrence: word t from the words before it. -/
def recurrenceWord (ws : List (BitVec w)) (t : Nat) : BitVec w :=
  v.smallSigma1 (ws.getD (t - 2) 0) + ws.getD (t - 7) 0 + v.smallSigma0 (ws.getD (t - 15) 0)
    + ws.getD (t - 16) 0

theorem nextScheduleWord_eq (ws : List (BitVec w)) : nextScheduleWord v ws = recurrenceWord v ws ws.length := rfl

/-- The recurrence reads only words below t. -/
theorem recurrenceWord_congr {ws us : List (BitVec w)} {t : Nat} (ht : 16 ≤ t)
    (h : ∀ j < t, ws.getD j 0 = us.getD j 0) : recurrenceWord v ws t = recurrenceWord v us t := by
  simp only [recurrenceWord, h (t - 2) (by omega), h (t - 7) (by omega), h (t - 15) (by omega),
    h (t - 16) (by omega)]

@[simp] theorem extendSchedule_length (n : Nat) (ws : List (BitVec w)) :
    (extendSchedule v n ws).length = ws.length + n := by
  induction n generalizing ws with
  | zero => rfl
  | succ n ih => simp only [extendSchedule, ih, List.length_append, List.length_singleton]; omega

/-- Extending a schedule keeps the words it has. -/
theorem extendSchedule_getD_of_lt {n t : Nat} {ws : List (BitVec w)} (ht : t < ws.length) :
    (extendSchedule v n ws).getD t 0 = ws.getD t 0 := by
  induction n generalizing ws with
  | zero => rfl
  | succ n ih =>
    have ht' : t < (ws ++ [nextScheduleWord v ws]).length := by simp; omega
    rw [extendSchedule, ih ht', List.getD_append _ _ _ _ ht]

/-- The first word that is added is the one the recurrence gives. -/
theorem extendSchedule_succ_getD_length (n : Nat) (ws : List (BitVec w)) :
    (extendSchedule v (n + 1) ws).getD ws.length 0 = recurrenceWord v ws ws.length := by
  rw [extendSchedule, extendSchedule_getD_of_lt v (by simp), List.getD_append_right _ _ _ _ le_rfl, Nat.sub_self,
    nextScheduleWord_eq, List.getD_cons_zero]

/-- Every word that is added satisfies the recurrence over the extended schedule. -/
theorem extendSchedule_getD_of_le {n t : Nat} {ws : List (BitVec w)} (h16 : 16 ≤ ws.length) (hle : ws.length ≤ t)
    (ht : t < ws.length + n) :
    (extendSchedule v n ws).getD t 0 = recurrenceWord v (extendSchedule v n ws) t := by
  induction n generalizing ws with
  | zero => omega
  | succ n ih =>
    obtain rfl | hlt := Nat.eq_or_lt_of_le hle
    · rw [extendSchedule_succ_getD_length]
      exact recurrenceWord_congr v h16 fun j hj => (extendSchedule_getD_of_lt v hj).symm
    · have hlen : (ws ++ [nextScheduleWord v ws]).length = ws.length + 1 := by simp
      exact ih (by omega) (by omega) (by omega)

@[simp] theorem messageWords_length (w : Nat) (blk : Bytes) : (messageWords w blk).length = 16 := by
  simp [messageWords]

theorem messageWords_getD {t : Nat} (w : Nat) (blk : Bytes) (ht : t < 16) :
    (messageWords w blk).getD t 0 = beWord w (slice blk (w / 8 * t) (w / 8)) := by
  simp [messageWords, ht, Nat.mul_comm]

/-- The schedule of a variant with at least 16 rounds: a word per round, first the block's, then the
recurrence's. -/
theorem schedule_words (hk : 16 ≤ v.k.length) (blk : Bytes) :
    (schedule v blk).length = v.k.length ∧
    (∀ t < 16, (schedule v blk).getD t 0 = beWord w (slice blk (w / 8 * t) (w / 8))) ∧
    (∀ t, 16 ≤ t → t < v.k.length → (schedule v blk).getD t 0 = recurrenceWord v (schedule v blk) t) := by
  have hlen := messageWords_length w blk
  refine ⟨?_, fun t ht => ?_, fun t hle ht => ?_⟩
  · rw [schedule, extendSchedule_length, hlen]; omega
  · rw [schedule, extendSchedule_getD_of_lt v (by omega), messageWords_getD w blk ht]
  · exact extendSchedule_getD_of_le v (by omega) (by omega) (by omega)

end Schedule

/-- Settles O55: `schedule_words` for the variant of 64 rounds and the one of 80. -/
theorem scheduleRecurrences : Obligations.ScheduleRecurrences :=
  ⟨schedule_words variant256 (by decide), schedule_words variant512 (by decide)⟩

/-! ### The constant tables (R195) -/

theorem primes_eq : primes =
    [2, 3, 5, 7, 11, 13, 17, 19, 23, 29, 31, 37, 41, 43, 47, 53, 59, 61, 67, 71, 73, 79, 83, 89, 97, 101, 103,
     107, 109, 113, 127, 131, 137, 139, 149, 151, 157, 163, 167, 173, 179, 181, 191, 193, 197, 199, 211, 223, 227,
     229, 233, 239, 241, 251, 257, 263, 269, 271, 277, 281, 283, 293, 307, 311, 313, 317, 331, 337, 347, 349, 353,
     359, 367, 373, 379, 383, 389, 397, 401, 409] := by decide +kernel

/-- Settles O56: with the primes listed once, every entry is an exact comparison of integers, for one of eight
whole parts of its root. -/
theorem shaTablesAreRootFractions : Obligations.ShaTablesAreRootFractions := by
  unfold Obligations.ShaTablesAreRootFractions isCubeRootFraction isSquareRootFraction
  rw [primes_eq]
  decide +kernel

/-! ### Printed results of the block functions (R187, R188, R238, R285) -/

/-- Settles O60: the kernel runs each block function once on its fixed input. -/
theorem blockFunctionsOnPrintedInputs : Obligations.BlockFunctionsOnPrintedInputs :=
  ⟨by decide +kernel, by decide +kernel, by decide +kernel, by decide +kernel⟩

end Sys2Proof.Machine
end

section
/-! PROOFS. Keccak (42_keccak.md): the five step mappings lane by lane, and the two constant tables against
their generation methods. -/

namespace Sys2Proof.Machine

open Sys2Proof.Claims

/-! ### Lanes (R230) -/

/-- A lane's indices count mod 5. -/
theorem laneAt_congr {x x' y y' : Nat} (s : Lanes) (hx : x % 5 = x' % 5) (hy : y % 5 = y' % 5) :
    laneAt s x y = laneAt s x' y' := by
  simp only [laneAt, hx, hy]

@[simp] theorem laneAt_mod_left (s : Lanes) (x y : Nat) : laneAt s (x % 5) y = laneAt s x y :=
  laneAt_congr s (Nat.mod_mod x 5) rfl

@[simp] theorem laneAt_mod_right (s : Lanes) (x y : Nat) : laneAt s x (y % 5) = laneAt s x y :=
  laneAt_congr s rfl (Nat.mod_mod y 5)

theorem columnParity_congr {x x' : Nat} (s : Lanes) (hx : x % 5 = x' % 5) :
    columnParity s x = columnParity s x' := by
  simp only [columnParity, laneAt_congr s hx rfl]

/-- Lane number x + 5·y gives back its two indices, mod 5. -/
theorem laneAt_lanesOf (f : Nat → Nat → Word64) (x y : Nat) : laneAt (lanesOf f) x y = f (x % 5) (y % 5) := by
  have hx : (x % 5 + 5 * (y % 5)) % 5 = x % 5 := by omega
  have hy : (x % 5 + 5 * (y % 5)) / 5 = y % 5 := by omega
  rw [laneAt, lanesOf, vecOf_getElem, hx, hy]

theorem columns_getD_mod (f : Nat → Word64) (x : Nat) : (columns f).getD (x % 5) 0 = f (x % 5) := by
  have hx : x % 5 < 5 := Nat.mod_lt x (by decide)
  generalize x % 5 = i at hx
  interval_cases i <;> rfl

/-! ### The step mappings (R231, R232, R234, R235, R236) -/

theorem thetaC_getD_mod (s : Lanes) (x : Nat) : (thetaC s).getD (x % 5) 0 = columnParity s x :=
  (columns_getD_mod _ x).trans (columnParity_congr s (Nat.mod_mod x 5))

theorem thetaD_getD_mod (s : Lanes) (x : Nat) :
    (thetaD (thetaC s)).getD (x % 5) 0 = columnParity s (x + 4) ^^^ rotl (columnParity s (x + 1)) 1 := by
  rw [thetaD, columns_getD_mod, thetaC_getD_mod, thetaC_getD_mod,
    columnParity_congr s (Nat.mod_add_mod x 5 4), columnParity_congr s (Nat.mod_add_mod x 5 1)]

theorem laneAt_theta (s : Lanes) (x y : Nat) :
    laneAt (theta s) x y
      = laneAt s x y ^^^ (columnParity s (x + 4) ^^^ rotl (columnParity s (x + 1)) 1) := by
  rw [theta, laneAt_lanesOf, thetaD_getD_mod, laneAt_mod_left, laneAt_mod_right]

theorem laneAt_rho (s : Lanes) (x y : Nat) :
    laneAt (rho s) x y = rotl (laneAt s x y) (rhoAt (x % 5) (y % 5)) := by
  rw [rho, laneAt_lanesOf, laneAt_mod_left, laneAt_mod_right]

/-- The second form of R234: which lane pi reads. -/
theorem laneAt_pi (s : Lanes) (x y : Nat) : laneAt (pi s) x y = laneAt s (x + 3 * y) x := by
  rw [pi, laneAt_lanesOf]
  exact laneAt_congr s (by omega) (Nat.mod_mod x 5)

/-- The first form of R234: where pi puts a lane. It is the second because y + 3·(2x + 3y) is x mod 5. -/
theorem laneAt_pi_dest (s : Lanes) (x y : Nat) : laneAt (pi s) y (2 * x + 3 * y) = laneAt s x y := by
  rw [laneAt_pi]
  exact laneAt_congr s (by omega) rfl

theorem laneAt_chi (s : Lanes) (x y : Nat) :
    laneAt (chi s) x y = laneAt s x y ^^^ (~~~(laneAt s (x + 1) y) &&& laneAt s (x + 2) y) := by
  rw [chi, laneAt_lanesOf, laneAt_congr s (Nat.mod_add_mod x 5 1) (Nat.mod_mod y 5),
    laneAt_congr s (Nat.mod_add_mod x 5 2) (Nat.mod_mod y 5), laneAt_mod_left, laneAt_mod_right]

/-- iota writes lane number 0, which is A[0, 0] alone. -/
theorem laneAt_iota (s : Lanes) (rc : Word64) (x y : Nat) :
    laneAt (iota s rc) x y = if x % 5 = 0 ∧ y % 5 = 0 then laneAt s 0 0 ^^^ rc else laneAt s x y := by
  have hzero : 0 = x % 5 + 5 * (y % 5) ↔ x % 5 = 0 ∧ y % 5 = 0 := by omega
  simp only [laneAt, iota, Vector.getElem_set, hzero]

/-- Settles O57: one lemma per mapping; for x, y in 0..4 the indices that rho and iota name are already mod 5. -/
theorem keccakStepMappings : Obligations.KeccakStepMappings := by
  intro s rc x y hx hy
  have hrho := laneAt_rho s x y
  have hiota := laneAt_iota s rc x y
  rw [Nat.mod_eq_of_lt hx, Nat.mod_eq_of_lt hy] at hrho hiota
  exact ⟨laneAt_theta s x y, hrho, laneAt_pi_dest s x y, laneAt_chi s x y, hiota⟩

/-! ### The constant tables (R233, R237) -/

/-- The 24 steps of R233's walk each name the table's offset, and no lane but (0, 0) is left out. -/
theorem rhoOffsets_walk :
    (∀ v ∈ rhoWalk 24 0 1 0, rhoAt v.1 v.2.1 = v.2.2) ∧
    ∀ x < 5, ∀ y < 5, x = 0 ∧ y = 0 ∨ (x, y) ∈ (rhoWalk 24 0 1 0).map fun v => (v.1, v.2.1) := by decide

/-- R237: bit 2^j − 1 of a round constant is the LFSR's, and every other bit is 0. -/
theorem roundConstants_lfsr : ∀ ir < 24, ∀ z < 64, (roundConstants.getD ir 0).getLsbD z
    = ([0, 1, 2, 3, 4, 5, 6].any fun j => z == 2 ^ j - 1 && rcBit (j + 7 * ir)) := by decide +kernel

/-- Settles O58: both tables are finite, so each is compared with its generation method entry by entry. -/
theorem keccakTablesAreGenerated : Obligations.KeccakTablesAreGenerated :=
  ⟨rfl, rhoOffsets_walk.1, rhoOffsets_walk.2, rfl, roundConstants_lfsr⟩

end Sys2Proof.Machine
end

section
/-! PROOFS. RIPEMD-160 (43_ripemd160.md): the properties R281 to R283 state of the tables. -/

namespace Sys2Proof.Machine

open Sys2Proof.Claims

/-- R281: in every round each line reads each of the 16 message words once. -/
theorem wordSelection_rows_perm :
    ∀ r < 5, (tableRow rmdRL r).Perm (List.range 16) ∧ (tableRow rmdRR r).Perm (List.range 16) := by
  decide

/-- R282, for both lines at once. -/
theorem rotationAmounts_bounds : ∀ s ∈ rmdSL ++ rmdSR, 5 ≤ s ∧ s ≤ 15 := by decide +kernel

/-- R283: k is the whole part of 2^30 · √n when k² ≤ n · 2^60 < (k + 1)², and of 2^30 · ∛n when
k³ ≤ n · 2^90 < (k + 1)³, so the roots are compared as integers. -/
theorem additiveConstants_roots : ∀ i < 4,
    let n := [2, 3, 5, 7].getD i 0
    let kl := (rmdKL.getD (i + 1) 0).toNat
    let kr := (rmdKR.getD i 0).toNat
    kl ^ 2 ≤ n * 2 ^ 60 ∧ n * 2 ^ 60 < (kl + 1) ^ 2 ∧ kr ^ 3 ≤ n * 2 ^ 90 ∧ n * 2 ^ 90 < (kr + 1) ^ 3 := by
  decide

/-- Settles O59: the tables are finite, so each property is checked row by row and entry by entry. -/
theorem ripemdTables : Obligations.RipemdTables :=
  ⟨rfl, rfl, rfl, rfl, wordSelection_rows_perm, rotationAmounts_bounds, ⟨rfl, rfl⟩, additiveConstants_roots⟩

end Sys2Proof.Machine
end

section
/-! PROOFS. The context commands (44_context.md): INIT and UPDATE, Absorb block by block, messages in chunks, and
what Finalize processes and leaves; HMAC's two live contexts are contexts of the same kind. -/

namespace Sys2Proof.Machine

open Sys2Proof.Claims

/-! ### INIT (R320, R321, R340) -/

/-- Settles O15: INIT checks nothing, and its one write is the whole of CTX. -/
theorem initStartsAFreshContext : Obligations.InitStartsAFreshContext := fun _ _ => rfl

theorem ivStore_toList (a : Alg) : (ivStore a).toList = ivWords a := by cases a <;> decide +kernel

/-- Settles O16: INIT answers OK from every state, and `ivStore_toList` compares the words. -/
theorem initLoadsTheInitialValue : Obligations.InitLoadsTheInitialValue :=
  fun s a => ⟨_, initStartsAFreshContext s a, ivStore_toList a⟩

/-! ### UPDATE and HMAC_UPDATE (R338, R341, R371) -/

/-- Settles O17: UPDATE passes its checks (`exec_update`), and Feed's counter does not wrap within MAXLEN. -/
theorem updateAbsorbsAndCounts : Obligations.UpdateAbsorbsAndCounts :=
  fun s _ m ha hp hfit => ⟨(feed s.ctx m).count, feed_count_toNat hfit, exec_update ha hp hfit⟩

/-- Settles O29: HMAC_UPDATE passes its checks (`exec_hmacUpdate`), and Feed's counter does not wrap within
MAXLEN. -/
theorem hmacUpdateFeedsTheInnerContext : Obligations.HmacUpdateFeedsTheInnerContext :=
  fun s _ m ha hp hfit => ⟨(feed s.hm.inner m).count, feed_count_toNat hfit, exec_hmacUpdate ha hp hfit⟩

/-! ### Absorb, block by block (R331) -/

/-- Settles O18: `absorb_blockwise` processes the whole blocks and buffers the rest; the buffer length is
`absorb_buflen_mod`, and no byte touches algorithm, phase or counter. -/
theorem absorbIsBlockwise : Obligations.AbsorbIsBlockwise := by
  intro c a m ha hb
  obtain ⟨hstore, hrest⟩ := absorb_blockwise ha hb (m := m) rfl
  exact ⟨hstore, absorb_buflen_mod ha hb m, hrest, absorb_alg c m, absorb_phase c m, absorb_count c m⟩

/-! ### A message in chunks (R345) -/

@[simp] theorem feed_nil (c : Context) : feed c [] = c := by
  simp [feed]

/-- UPDATEs of chunks that fit below MAXLEN together answer OK each, and feed CTX the chunks' concatenation. -/
theorem runCommands_updates {s : State} {a : Alg} {chunks : List Bytes} (ha : s.ctx.alg = some a)
    (hp : s.ctx.phase = .absorbing) (hfit : s.ctx.count.toNat + chunks.flatten.length ≤ maxLen a) :
    runCommands (chunks.map .update) s = .next
      { s with
        ctx := feed s.ctx chunks.flatten
        responses := s.responses ++ List.replicate chunks.length ⟨.ok, 0#64, []⟩ } := by
  induction chunks generalizing s with
  | nil => simp [runCommands]
  | cons m chunks ih =>
    obtain ⟨hm, hrest⟩ := feed_fits (m := m) (n := chunks.flatten) hfit
    rw [List.map_cons]
    refine runCommands_cons_eq_next (exec_update ha hp hm) ((ih ?_ ?_ hrest).trans ?_)
    · simp [ha]
    · simp [hp]
    · simp [succeed, respond, feed_append, List.replicate_succ]

/-- Settles O19: by induction on the chunks (`runCommands_updates`), both runs leave CTX as Feed of the whole
message does, and neither writes anything else but its responses. -/
theorem chunkingInvariance : Obligations.ChunkingInvariance := fun _ _ _ ha hp hfit =>
  ⟨_, _, runCommands_updates ha hp hfit, exec_update ha hp hfit,
    rfl, rfl, rfl, rfl, rfl, rfl, rfl, rfl, rfl, rfl⟩

/-! ### The length field (R334) -/

/-- MAXLEN of SHA2-32 and RMD160, whose length field has 64 bits (R11). -/
theorem maxLen_of_narrowFamily {a : Alg} (hf : narrowFamily (familyOf a) = true) : maxLen a = 2 ^ 61 - 1 := by
  unfold maxLen
  cases hfam : familyOf a with
  | sha2_32 | rmd160 => rfl
  | sha2_64 | keccak => rw [hfam] at hf; cases hf

theorem bitLength_lt_of_narrowFamily {a : Alg} (hf : narrowFamily (familyOf a) = true) {n : Nat}
    (hn : n ≤ maxLen a) : 8 * n < 2 ^ 64 := by
  rw [maxLen_of_narrowFamily hf] at hn
  omega

/-- Settles O23: the field's bytes read back as the number they were written from, and that number is the bit
length itself: below MAXLEN it fits 64 bits, and 128 bits hold it for every counter. -/
theorem lengthFieldIsExact : Obligations.LengthFieldIsExact := by
  intro a count hcount
  refine ⟨lenField_length _ _, ?_⟩
  cases hfam : familyOf a with
  | sha2_32 =>
    have hfits := bitLength_lt_of_narrowFamily (by rw [hfam]; rfl) hcount
    exact (beNat_beBytes _ (by decide)).trans (Nat.mod_eq_of_lt hfits)
  | sha2_64 => exact (beNat_beBytes _ (by decide)).trans (Nat.mod_eq_of_lt (by omega))
  | keccak => rfl
  | rmd160 =>
    have hfits := bitLength_lt_of_narrowFamily (by rw [hfam]; rfl) hcount
    exact (leNat_leBytes _ (by decide)).trans (Nat.mod_eq_of_lt hfits)

/-! ### Finalize (R332, R335, R336) -/

theorem finalizeCtx_buflen (k : KeccakSuffix) {a : Alg} {c : Context} (ha : c.alg = some a)
    (hb : c.buflen.toNat < blockSize a) : (finalizeCtx k c).buflen = 0#8 := by
  rw [finalizeCtx_eq k ha]
  exact padCtx_buflen k ha hb

/-- Finalize processes the buffered bytes and the padding, block by block. -/
theorem finalizeCtx_store (k : KeccakSuffix) {a : Alg} {c : Context} (ha : c.alg = some a)
    (hb : c.buflen.toNat < blockSize a) :
    (finalizeCtx k c).store = afterBlocks a c.store (padBlocks a c.buflen.toNat)
      (buffered c ++ padding k a c.count.toNat c.buflen.toNat) := by
  rw [finalizeCtx_eq k ha]
  exact padCtx_store k ha hb

/-- Settles O21: Finalize writes the phase after the padding, which ends on a block boundary and leaves algorithm
and counter; `digest_eq_digestBytes` reads the digest off the final store. -/
theorem finalizeLeavesTheContext : Obligations.FinalizeLeavesTheContext := fun k c a ha hb =>
  ⟨finalizeCtx_phase k c, finalizeCtx_buflen k ha hb, finalizeCtx_count k c, (finalizeCtx_alg k c).trans ha,
    finalizeDigest_length k ha, (finalizeDigest_eq k ha).trans (digest_eq_digestBytes a _)⟩

/-- Settles O22: `padding_length` counts the blocks, and `finalizeCtx_store` processes them. -/
theorem finalizeProcessesThePadding : Obligations.FinalizeProcessesThePadding := by
  intro k c a ha hb
  refine ⟨?_, finalizeCtx_store k ha hb⟩
  rw [List.length_append]
  exact (congrArg (· + _) (buffered_length_of_lt hb)).trans (padding_length k hb c.count)

/-! ### The outer context of HMAC_FINAL (R363, R481) -/

theorem digestSize_lt_blockSize (a : Alg) : digestSize a < blockSize a := by cases a <;> decide

/-- A digest leaves room for its padding in one block. -/
theorem padBlocks_digestSize (a : Alg) : padBlocks a (digestSize a) = 1 := by cases a <;> decide

/-- Finalizing a context that was fed less than a block on a block boundary, with room for the padding, processes
one block: the bytes fed and the padding. -/
theorem finalizeCtx_feed_one_block (k : KeccakSuffix) {a : Alg} {c : Context} {m : Bytes} (ha : c.alg = some a)
    (hb : c.buflen = 0#8) (hm : m.length < blockSize a) (hone : padBlocks a m.length = 1) :
    (m ++ padding k a (feed c m).count.toNat m.length).length = blockSize a ∧
      (finalizeCtx k (feed c m)).store
        = processStore (familyOf a) c.store (m ++ padding k a (feed c m).count.toNat m.length) := by
  have hfa : (feed c m).alg = some a := by rw [feed_alg, absorb_alg, ha]
  obtain ⟨hstore, hlen, hbuf⟩ := absorb_short ha m (by simpa [hb] using hm)
  replace hlen : (feed c m).buflen.toNat = m.length := by simpa [hb] using hlen
  replace hbuf : buffered (feed c m) = m := by rwa [buffered_of_buflen_zero hb] at hbuf
  have hblock : (m ++ padding k a (feed c m).count.toNat m.length).length = blockSize a := by
    rw [List.length_append, padding_length k hm, hone, Nat.one_mul]
  refine ⟨hblock, ?_⟩
  rw [finalizeCtx_store k hfa (by rwa [hlen]), hbuf, hlen, hone, afterBlocks_one _ hblock, feed_store, hstore]

/-- Until HMAC_FINAL the outer context stands on a block boundary: only the pad block was fed to it (R370). -/
theorem outer_buflen {h : HmacUnit} {a : Alg} (hl : LiveHmac a h) (hp : h.phase = .absorbing) :
    h.outer.buflen = 0#8 := by
  apply BitVec.eq_of_toNat_eq
  rw [hl.outerUntouched hp, hl.savedOuter, feed_initCtx_buflen, padTake_length, Nat.mod_self]
  rfl

/-- The outer counter after the inner digest was fed (R363). -/
theorem outerFed_count (k : KeccakSuffix) {h : HmacUnit} {a : Alg} (hl : LiveHmac a h)
    (hp : h.phase = .absorbing) : (outerFed k h).count.toNat = blockSize a + digestSize a := by
  have hroom := digestSize_lt_blockSize a
  have hmax := two_blockSize_le_maxLen a
  have hdigest := finalizeDigest_length k hl.innerAlg
  have hcount := outer_count hl hp
  rw [outerFed, feed_count_toNat (a := a) (by omega), hcount, hdigest]

/-- Settles O31: by the invariant the outer context is the saved one, on a block boundary with BS bytes counted,
so the inner digest and its padding are the one block of `finalizeCtx_feed_one_block`. -/
theorem hmacFinalProcessesOneOuterBlock : Obligations.HmacFinalProcessesOneOuterBlock := by
  intro s a l hs ha hp hl
  have hlive := hs.hm.live a ha
  have hdigest := finalizeDigest_length s.keccakSuffix hlive.innerAlg
  obtain ⟨hblock, hstore⟩ := finalizeCtx_feed_one_block s.keccakSuffix hlive.outerAlg (outer_buflen hlive hp)
    (m := finalizeDigest s.keccakSuffix s.hm.inner) (hdigest ▸ digestSize_lt_blockSize a)
    (hdigest ▸ padBlocks_digestSize a)
  rw [← outerFed, outerFed_count _ hlive hp, hdigest, ← outerBlock] at hblock hstore
  rw [hlive.outerUntouched hp] at hstore
  exact ⟨hblock, _, exec_hmacFinal ha hp hl, hstore⟩

end Sys2Proof.Machine
end

section
/-! PROOFS. The HMAC commands (45_hmac.md): key normalisation, the two pad blocks, reinit and what it restores
whatever came between, and truncated output. -/

namespace Sys2Proof.Machine

open Sys2Proof.Claims

/-! ### Key normalisation (R360, R377) -/

theorem keyNorm_of_le (k : KeccakSuffix) {a : Alg} {key : Bytes} (h : key.length ≤ blockSize a) :
    keyNorm k a key = key ++ zeros (blockSize a - key.length) := by
  rw [keyNorm, if_neg (Nat.not_lt.mpr h)]

theorem keyNorm_of_lt (k : KeccakSuffix) {a : Alg} {key : Bytes} (h : blockSize a < key.length) :
    keyNorm k a key = hashFn k a key ++ zeros (blockSize a - digestSize a) := by
  simp only [keyNorm, if_pos h, hashFn_length]

/-- Settles O26: one equation for each side of the strict comparison with BS. -/
theorem keyNormalisation : Obligations.KeyNormalisation :=
  fun k a key => ⟨keyNorm_length k a key, keyNorm_of_le k, keyNorm_of_lt k⟩

/-! ### The two pad blocks (R370) -/

theorem xorRep_keyNorm_length (k : KeccakSuffix) (a : Alg) (key : Bytes) (b : Byte) :
    (xorRep (keyNorm k a key) b).length = blockSize a := by
  rw [xorRep_length, keyNorm_length]

/-- A fresh context fed exactly one block has counted and processed it, and buffers nothing. -/
theorem feed_initCtx_one_block {a : Alg} {blk : Bytes} (h : blk.length = blockSize a) :
    (feed (initCtx a) blk).count.toNat = blockSize a ∧ (feed (initCtx a) blk).buflen = 0#8 ∧
      (feed (initCtx a) blk).store = processStore (familyOf a) (ivStore a) blk := by
  have hmax := two_blockSize_le_maxLen a
  have hne : blk ≠ [] := List.length_pos_iff.mp (h ▸ blockSize_pos a)
  obtain ⟨hstore, hbuflen⟩ := absorb_fill (initCtx_alg a) hne (by simpa using h)
  rw [buffered_of_buflen_zero (initCtx_buflen a), List.nil_append] at hstore
  exact ⟨by rw [feed_initCtx_count (by omega), h], hbuflen, hstore⟩

/-- Settles O28: each live context is a fresh one fed its masked key, which is one block. -/
theorem hmacInitProcessesOneBlockEach : Obligations.HmacInitProcessesOneBlockEach := by
  intro s a key hk
  obtain ⟨hicount, hibuflen, histore⟩ :=
    feed_initCtx_one_block (xorRep_keyNorm_length s.keccakSuffix a key 0x36#8)
  obtain ⟨hocount, hobuflen, hostore⟩ :=
    feed_initCtx_one_block (xorRep_keyNorm_length s.keccakSuffix a key 0x5c#8)
  refine ⟨_, exec_hmacInit hk, ?_⟩
  rw [succeed_hm, loadKey_inner, loadKey_outer]
  exact ⟨hicount, hocount, hibuflen, hobuflen, histore, hostore⟩

/-! ### Reinit (R373) -/

/-- HMAC_REINIT in ABSORBING and FINALIZED. -/
theorem exec_hmacReinit {s : State} (hp : s.hm.phase ≠ .empty) :
    exec .hmacReinit s = .next (succeed 0#64 [] { s with hm := hmacRestore s.hm }) :=
  exec_of_ok (i := .hmacReinit) (reinitStatus_eq_ok_iff.mpr hp)

/-- Settles O32: outside EMPTY the check of HMAC_REINIT passes (`exec_hmacReinit`). -/
theorem hmacReinitRestoresTheBaseline : Obligations.HmacReinitRestoresTheBaseline :=
  fun _ hp => exec_hmacReinit hp

/-! ### A loaded key survives every command but HMAC_INIT (R41, R375) -/

/-- What HMAC_REINIT would restore is written by no command but HMAC_INIT: it is HM.alg and the baseline. -/
theorem exec_hmacRestore {i : Instr} {s t : State} (hi : loadsKey i = false) (h : exec i s = .next t) :
    hmacRestore t.hm = hmacRestore s.hm := by
  obtain rfl := exec_eq_next_iff.mp h
  rw [respond_hm]
  refine commandWrites_induct (P := fun u => hmacRestore u.hm = hmacRestore s.hm) rfl fun _ => ?_
  cases i with
  | init _ | update _ | final _ | rdreg _ | hmacUpdate _ | hmacFinal _ | hmacReinit => rfl
  | hmacInit _ _ => cases hi

/-- A reinit from s would leave the unit as HMAC_INIT left it for the key. -/
structure HoldsKey (k : KeccakSuffix) (a : Alg) (key : Bytes) (s : State) : Prop where
  keccakSuffix : s.keccakSuffix = k
  phase : s.hm.phase ≠ .empty
  restore : hmacRestore s.hm = loadKey k a key

theorem holdsKey_of_loadKey {k : KeccakSuffix} {a : Alg} {key : Bytes} {s : State} (hk : s.keccakSuffix = k)
    (h : s.hm = loadKey k a key) : HoldsKey k a key s where
  keccakSuffix := hk
  phase := by rw [h, loadKey_phase]; decide
  restore := by rw [h]; rfl

/-- No command but HMAC_INIT loses the key. -/
theorem HoldsKey.of_exec {k : KeccakSuffix} {a : Alg} {key : Bytes} {s t : State} {i : Instr}
    (hs : HoldsKey k a key s) (hi : loadsKey i = false) (h : exec i s = .next t) : HoldsKey k a key t where
  keccakSuffix := (exec_keccakSuffix h).trans hs.keccakSuffix
  phase := (exec_phases_ne_empty h).2 hs.phase
  restore := (exec_hmacRestore hi h).trans hs.restore

/-- What follows commands other than HMAC_INIT runs from a state that still holds the key. -/
theorem HoldsKey.runCommands_append {k : KeccakSuffix} {a : Alg} {key : Bytes} {s : State} {is : List Instr}
    (hs : HoldsKey k a key s) (his : ∀ i ∈ is, loadsKey i = false) (js : List Instr) :
    ∃ t, runCommands (is ++ js) s = runCommands js t ∧ HoldsKey k a key t := by
  induction is generalizing s with
  | nil => exact ⟨s, rfl, hs⟩
  | cons i is ih =>
    obtain ⟨hi, his⟩ := List.forall_mem_cons.mp his
    rw [List.cons_append, runCommands_cons]
    exact ih (hs.of_exec hi (exec_eq_respond i s)) his

/-! ### The MAC after a reinit (R375) -/

/-- What HMAC_FINAL answers to a key and a message: the leading L bytes of the MAC, or ELEN (R372, R419). -/
def macResponse (k : KeccakSuffix) (a : Alg) (key m : Bytes) (l : OutLen) : Response :=
  if outputLength (some a) l ≤ digestSize a then
    ⟨.ok, 0#64, (wholeHmac k a key m).take (outputLength (some a) l)⟩
  else ⟨.elen, 0#64, []⟩

/-- HMAC_FINAL in ABSORBING with L above DS. -/
theorem exec_hmacFinal_elen {s : State} {a : Alg} {l : OutLen} (ha : s.hm.alg = some a)
    (hp : s.hm.phase = .absorbing) (hl : ¬ outputLength (some a) l ≤ digestSize a) :
    exec (.hmacFinal l) s = .next (raise .elen s) := by
  have hst : (effect (.hmacFinal l) s).status = .elen := by
    simp [effect, finalStatus, ha, hp, digestSizeOf, Nat.not_le.mp hl]
  rw [exec_eq_complete, hst, complete_error (by decide)]

/-- From a unit just loaded, HMAC_UPDATE and HMAC_FINAL answer the key's MAC of the message. -/
theorem runCommands_mac_of_loadKey {k : KeccakSuffix} {a : Alg} {key m : Bytes} {s : State} (l : OutLen)
    (hsuffix : s.keccakSuffix = k) (hs : s.hm = loadKey k a key) (hk : keyTaken a key)
    (hm : blockSize a + m.length ≤ maxLen a) :
    ∃ t, runCommands [.hmacUpdate m, .hmacFinal l] s = .next t ∧
      t.responses.getLast? = some (macResponse k a key m l) := by
  have ha : s.hm.alg = some a := by rw [hs, loadKey_alg]
  have hp : s.hm.phase = .absorbing := by rw [hs, loadKey_phase]
  have hupdate := exec_hmacUpdate ha hp (m := m) (by rwa [hs, loadKey_inner_count])
  by_cases hl : outputLength (some a) l ≤ digestSize a
  · refine ⟨_, runCommands_cons_eq_next hupdate (runCommands_cons_eq_next (exec_hmacFinal ha hp hl) rfl), ?_⟩
    rw [macResponse, if_pos hl, ← hmacOut_loadKey_eq_wholeHmac k hk hm, ← hs, ← hsuffix]
    simp
  · refine ⟨_, runCommands_cons_eq_next hupdate
      (runCommands_cons_eq_next (exec_hmacFinal_elen ha hp hl) rfl), ?_⟩
    rw [macResponse, if_neg hl]
    simp

/-- From a state that holds the key, a reinit first restores the unit just loaded. -/
theorem HoldsKey.runCommands_reinit_mac {k : KeccakSuffix} {a : Alg} {key m : Bytes} {s : State} (l : OutLen)
    (hs : HoldsKey k a key s) (hk : keyTaken a key) (hm : blockSize a + m.length ≤ maxLen a) :
    ∃ t, runCommands [.hmacReinit, .hmacUpdate m, .hmacFinal l] s = .next t ∧
      t.responses.getLast? = some (macResponse k a key m l) := by
  obtain ⟨t, hrun, hlast⟩ := runCommands_mac_of_loadKey l
    (s := succeed 0#64 [] { s with hm := hmacRestore s.hm }) hs.keccakSuffix hs.restore hk hm
  exact ⟨t, runCommands_cons_eq_next (exec_hmacReinit hs.phase) hrun, hlast⟩

/-- Settles O34: HMAC_INIT's state answers the MAC at once (`runCommands_mac_of_loadKey`), and it holds the key,
which the commands between keep (`HoldsKey.runCommands_append`), so the reinit answers the same MAC
(`HoldsKey.runCommands_reinit_mac`). -/
theorem reinitEquivalence : Obligations.ReinitEquivalence := by
  intro s a key m l between hk hm hbetween
  have hinit := exec_hmacInit (s := s) hk
  obtain ⟨t, hrun, hlast⟩ := runCommands_mac_of_loadKey l
    (s := succeed 0#64 [] { s with hm := loadKey s.keccakSuffix a key }) rfl rfl hk hm
  obtain ⟨v, hmid, hv⟩ := (holdsKey_of_loadKey
    (s := succeed 0#64 [] { s with hm := loadKey s.keccakSuffix a key }) rfl rfl).runCommands_append hbetween
    [.hmacReinit, .hmacUpdate m, .hmacFinal l]
  obtain ⟨u, hrun', hlast'⟩ := hv.runCommands_reinit_mac l hk hm
  refine ⟨t, u, macResponse s.keccakSuffix a key m l, runCommands_cons_eq_next hinit hrun,
    runCommands_cons_eq_next hinit (hmid.trans hrun'), hlast, hlast', fun hl => ?_⟩
  rw [macResponse, if_pos hl]

/-! ### Truncated output (R337, R376) -/

/-- The leading L bytes of a full output are the L bytes that a truncated one takes. -/
theorem take_full_take_bytes {a : Alg} {n : BitVec 7} (hn : n.toNat ≤ digestSize a) (out : Bytes) :
    (out.take (outputLength (some a) .full)).take n.toNat = out.take (outputLength (some a) (.bytes n)) := by
  rw [List.take_take]
  exact congrArg out.take (min_eq_left hn)

/-- Settles O35: both commands finalize the same contexts at every L (`exec_final`, `exec_hmacFinal`), and only
the output is cut at L. -/
theorem truncationTakesTheLeadingBytes : Obligations.TruncationTakesTheLeadingBytes := by
  refine fun s a n hn => ⟨fun ha hp => ?_, fun ha hp => ?_⟩
  · refine ⟨_, _, _, exec_final ha hp le_rfl, exec_final ha hp hn, rfl, ?_, rfl, rfl⟩
    rw [take_full_take_bytes hn, succeed_responses]
  · refine ⟨_, _, _, exec_hmacFinal ha hp le_rfl, exec_hmacFinal ha hp hn, rfl, ?_, rfl, rfl⟩
    rw [take_full_take_bytes hn, succeed_responses]

end Sys2Proof.Machine
end

section
/-! PROOFS. Exceptions (60_exceptions.md): when each error status is raised, by a decode check or by a command's own
checks, what an error leaves, and the steps that answer nothing: idling and reset. -/

namespace Sys2Proof.Machine

open Sys2Proof.Claims

/-! ### The fields of the command word as numbers (R101) -/

theorem algField_toNat (t : Transaction) : (algField t.cw).toNat = algNum t := by
  simp [algField, algNum, Nat.shiftRight_eq_div_pow]

theorem outlenField_toNat (t : Transaction) : (outlenField t.cw).toNat = outlenNum t := by
  simp [outlenField, outlenNum, Nat.shiftRight_eq_div_pow]

theorem fullField_toNat (t : Transaction) : (fullField t.cw).toNat = fullNum t := by
  simp [fullField, fullNum, Nat.shiftRight_eq_div_pow]

/-- RSV is the topmost field, so nothing is cut off above it. -/
theorem rsvField_toNat (t : Transaction) : (rsvField t.cw).toNat = rsvNum t := by
  have hcw := t.cw.isLt
  simp only [rsvField, rsvNum, BitVec.extractLsb'_toNat, Nat.shiftRight_eq_div_pow]
  omega

/-! ### The opcode (R412) -/

theorem opcodeOfCode_eq_none_iff {c : BitVec 8} : opcodeOfCode c = none ↔ c.toNat ∉ assigned := by
  unfold opcodeOfCode
  split <;> simp_all [assigned]

theorem opcodeOfCode_opcField_eq_none_iff {t : Transaction} :
    opcodeOfCode (opcField t.cw) = none ↔ opc t ∉ assigned := by
  rw [opcodeOfCode_eq_none_iff, opcField_toNat, opc]

theorem opc_eq_of_opcode {t : Transaction} {op : Opcode} (hop : opcodeOfCode (opcField t.cw) = some op) :
    opc t = (opcodeCode op).toNat := by
  rw [opc, ← opcField_toNat, opcodeOfCode_eq_some hop]

theorem opcodeCode_mem_assigned (op : Opcode) : (opcodeCode op).toNat ∈ assigned := by cases op <;> decide

theorem opcodeCode_mem_iff_usesAlg (op : Opcode) :
    (opcodeCode op).toNat ∈ [0x01, 0x11] ↔ usesAlg op = true := by cases op <;> decide

theorem opcodeCode_mem_iff_usesOut (op : Opcode) :
    (opcodeCode op).toNat ∈ [0x03, 0x13] ↔ usesOut op = true := by cases op <;> decide

theorem opcodeCode_mem_iff_not_usesArg (op : Opcode) :
    (opcodeCode op).toNat ∈ [0x01, 0x03, 0x13, 0x14] ↔ usesArg op = false := by cases op <;> decide

theorem opcodeCode_eq_iff_rdreg (op : Opcode) : (opcodeCode op).toNat = 0x04 ↔ op = .rdreg := by
  cases op <;> decide

/-! ### The operands (R413 to R415) -/

/-- The five cases of R413 are the decoder's check: each field is compared as a number, and each list of opcodes is
one of R109's three predicates. -/
theorem fieldsReserved_iff {t : Transaction} {op : Opcode} (hop : opcodeOfCode (opcField t.cw) = some op) :
    fieldsReserved t ↔ reservedNonzero op t.cw t.arg = true := by
  rw [← not_iff_not, Bool.not_eq_true, reservedNonzero_eq_false_iff]
  simp only [← BitVec.toNat_inj, algField_toNat, outlenField_toNat, fullField_toNat, rsvField_toNat,
    BitVec.toNat_ofNat, Nat.reducePow, Nat.reduceMod]
  unfold fieldsReserved
  rw [opc_eq_of_opcode hop, opcodeCode_mem_iff_usesAlg, opcodeCode_mem_iff_usesOut,
    opcodeCode_mem_iff_not_usesArg]
  simp only [← Bool.not_eq_true]
  tauto

theorem algOfCode_eq_none_iff {c : BitVec 4} :
    algOfCode c = none ↔ c.toNat ∉ [1, 2, 3, 4, 5, 6, 7, 8, 9] := by
  revert c; decide

theorem regOfNumber_eq_none_iff {n : Word64} : regOfNumber n = none ↔ ¬ mappedReg n.toNat := by
  unfold regOfNumber mappedReg
  simp only [← BitVec.toNat_inj, BitVec.toNat_ofNat]
  grind

/-- Reading the operands fails in two ways: a reserved algorithm code, or an unmapped register number. -/
theorem decodeOperands_eq_error_iff {op : Opcode} {t : Transaction} {e : DecodeError} :
    decodeOperands op t = .error e ↔
      (usesAlg op = true ∧ algOfCode (algField t.cw) = none ∧ e = .status .ealg) ∨
      (op = .rdreg ∧ regOfNumber t.arg = none ∧ e = .status .ereg) := by
  cases op with
  | init | hmacInit =>
    cases ha : algOfCode (algField t.cw) <;> simp [decodeOperands, usesAlg, ha, eq_comm]
  | rdreg =>
    cases hr : regOfNumber t.arg <;> simp [decodeOperands, usesAlg, hr, eq_comm]
  | update | final | hmacUpdate | hmacFinal | hmacReinit => simp [decodeOperands, usesAlg]

/-! ### The decode checks in the order of R411 -/

/-- Every status a decode check raises, with its condition in the order of R411. The opcode decides first; an
assigned one raises ERSV on the reserved-field check, and past that only what reading its operands raises. -/
theorem decode_eq_status_iff {t : Transaction} (ht : payloadAsRequired t) {st : Status} :
    decode t = .error (.status st) ↔
      (st = .eopc ∧ opc t ∉ assigned) ∨
      (st = .ersv ∧ opc t ∈ assigned ∧ fieldsReserved t) ∨
      (st = .ealg ∧ opc t ∈ [0x01, 0x11] ∧ ¬ fieldsReserved t ∧ algNum t ∉ [1, 2, 3, 4, 5, 6, 7, 8, 9]) ∨
      (st = .ereg ∧ opc t = 0x04 ∧ ¬ fieldsReserved t ∧ ¬ mappedReg t.arg.toNat) := by
  have hl := payloadAsRequired_iff.mp ht
  cases hop : opcodeOfCode (opcField t.cw) with
  | none =>
    have hbad := opcodeOfCode_opcField_eq_none_iff.mp hop
    rw [decode_of_badOpcode hl hop]
    grind [assigned]
  | some op =>
    rw [decode_of_opcode hl hop, fieldsReserved_iff hop, opc_eq_of_opcode hop, opcodeCode_mem_iff_usesAlg,
      opcodeCode_eq_iff_rdreg, ← algField_toNat, ← algOfCode_eq_none_iff, ← regOfNumber_eq_none_iff]
    have hassigned := opcodeCode_mem_assigned op
    by_cases hr : reservedNonzero op t.cw t.arg = true
    · rw [if_pos hr]
      grind
    · rw [if_neg hr, decodeOperands_eq_error_iff]
      grind

/-- Settles O4: the first line of `decode_eq_status_iff`. -/
theorem eopcExactlyForUnassignedOpcodes : Obligations.EopcExactlyForUnassignedOpcodes := fun t ht => by
  simp [decode_eq_status_iff ht]

/-- Settles O5: the second line of `decode_eq_status_iff`. -/
theorem ersvExactlyForReservedFields : Obligations.ErsvExactlyForReservedFields := fun t ht => by
  simp [decode_eq_status_iff ht]

/-- Settles O6: the third line of `decode_eq_status_iff`. -/
theorem ealgExactlyForReservedCodes : Obligations.EalgExactlyForReservedCodes := fun t ht => by
  simp [decode_eq_status_iff ht]

/-- Settles O7: the fourth line of `decode_eq_status_iff`. -/
theorem eregExactlyForUnmappedNumbers : Obligations.EregExactlyForUnmappedNumbers := fun t ht => by
  simp [decode_eq_status_iff ht]

/-! ### What a command's own checks raise (R411, R418 to R420) -/

/-- The checks of UPDATE and HMAC_UPDATE, line by line. -/
theorem updateStatus_eq_iff {p : Phase} {o : Option Alg} {count : Word64} {n : Nat} {st : Status} :
    updateStatus p o count n = st ↔
      (st = .estate ∧ p ≠ .absorbing) ∨
      (st = .eovf ∧ p = .absorbing ∧ maxLenOf o < count.toNat + n) ∨
      (st = .ok ∧ p = .absorbing ∧ count.toNat + n ≤ maxLenOf o) := by
  unfold updateStatus
  by_cases hp : p = .absorbing
  · by_cases hlen : maxLenOf o < count.toNat + n
    · simp [hp, hlen, Nat.not_le.mpr hlen, eq_comm]
    · simp [hp, hlen, Nat.not_lt.mp hlen, eq_comm]
  · simp [hp, eq_comm]

/-- The checks of FINAL and HMAC_FINAL, line by line. -/
theorem finalStatus_eq_iff {p : Phase} {o : Option Alg} {l : OutLen} {st : Status} :
    finalStatus p o l = st ↔
      (st = .estate ∧ p ≠ .absorbing) ∨
      (st = .elen ∧ p = .absorbing ∧ digestSizeOf o < outputLength o l) ∨
      (st = .ok ∧ p = .absorbing ∧ outputLength o l ≤ digestSizeOf o) := by
  unfold finalStatus
  by_cases hp : p = .absorbing
  · by_cases hlen : digestSizeOf o < outputLength o l
    · simp [hp, hlen, Nat.not_le.mpr hlen, eq_comm]
    · simp [hp, hlen, Nat.not_lt.mp hlen, eq_comm]
  · simp [hp, eq_comm]

/-- The check of HMAC_INIT: EOVF or none. -/
theorem keyStatus_eq_iff {a : Alg} {n : Nat} {st : Status} :
    keyStatus a n = st ↔
      (st = .eovf ∧ blockSize a < n ∧ maxLen a < n) ∨ (st = .ok ∧ ¬ (blockSize a < n ∧ maxLen a < n)) := by
  unfold keyStatus
  by_cases hlen : blockSize a < n ∧ maxLen a < n
  · simp [hlen, eq_comm]
  · simp only [gt_iff_lt, hlen, if_false, and_false, false_or, not_false_eq_true, and_true, eq_comm]

/-- The check of HMAC_REINIT: ESTATE or none. -/
theorem reinitStatus_eq_iff {p : Phase} {st : Status} :
    reinitStatus p = st ↔ (st = .estate ∧ p = .empty) ∨ (st = .ok ∧ p ≠ .empty) := by
  unfold reinitStatus
  by_cases hp : p = .empty
  · simp [hp, eq_comm]
  · simp [hp, eq_comm]

/-- Settles O37: each command's checks, at ESTATE. -/
theorem estateExactlyByPhase : Obligations.EstateExactlyByPhase := by
  intro i s
  rw [answers_iff]
  cases i with
  | init _ | rdreg _ => simp [effect]
  | update _ | hmacUpdate _ => simp [effect, updateStatus_eq_iff]
  | final _ | hmacFinal _ => simp [effect, finalStatus_eq_iff]
  | hmacInit _ _ => simp [effect, keyStatus_eq_iff]
  | hmacReinit => simp [effect, reinitStatus_eq_iff]

/-- Settles O38: each command's checks, at ELEN. With FULL = 1, L is DS itself (R105), which is never too long. -/
theorem elenExactlyForLongOutputs : Obligations.ElenExactlyForLongOutputs := by
  intro i s _
  rw [answers_iff]
  cases i with
  | init _ | rdreg _ => simp [effect]
  | update _ | hmacUpdate _ => simp [effect, updateStatus_eq_iff]
  | final l | hmacFinal l =>
    cases l with
    | full | bytes _ => simp [effect, finalStatus_eq_iff, outputLength]
  | hmacInit _ _ => simp [effect, keyStatus_eq_iff]
  | hmacReinit => simp [effect, reinitStatus_eq_iff]

/-- Settles O39: each command's checks, at EOVF. -/
theorem eovfExactlyPastMaxlen : Obligations.EovfExactlyPastMaxlen := by
  intro i s _
  rw [answers_iff]
  cases i with
  | init _ | rdreg _ => simp [effect]
  | update _ | hmacUpdate _ => simp [effect, updateStatus_eq_iff]
  | final _ | hmacFinal _ => simp [effect, finalStatus_eq_iff]
  | hmacInit _ _ => simp [effect, keyStatus_eq_iff]
  | hmacReinit => simp [effect, reinitStatus_eq_iff]

/-! ### An error changes nothing (R416, R421) -/

/-- A step that takes a command off the channel raises a status there, or runs the decoded command, whose checks
pass. -/
theorem step_command_cases {s u : State} {t : Transaction} {rest : List Input}
    (hin : s.inputs = .command t :: rest) (h : step s = .next u) :
    (∃ st, u = raise st { s with inputs := rest }) ∨
      ∃ i, u = succeed (effect i { s with inputs := rest }).value (effect i { s with inputs := rest }).out
        (effect i { s with inputs := rest }).after := by
  obtain ⟨hidle, -⟩ | ⟨p, rest', hreset, -⟩ | ⟨t', rest', st, hcmd, -, hu⟩ | ⟨t', rest', i, hcmd, -, hrun⟩ :=
    step_cases h
  · simp [hin] at hidle
  · simp [hin] at hreset
  · obtain ⟨-, rfl⟩ : t = t' ∧ rest = rest' := by simpa [hin] using hcmd
    exact .inl ⟨st, hu⟩
  · obtain ⟨-, rfl⟩ : t = t' ∧ rest = rest' := by simpa [hin] using hcmd
    obtain ⟨-, hu⟩ | ⟨-, hu⟩ := exec_cases hrun
    · exact .inr ⟨i, hu⟩
    · exact .inl ⟨_, hu⟩

/-- Settles O40: an error is `raise` at the state with the command taken off the channel, since a command whose
checks pass answers OK. -/
theorem errorsChangeNothing : Obligations.ErrorsChangeNothing := by
  intro s u t rest r hin hstep hresp herr
  obtain ⟨st, rfl⟩ | ⟨i, rfl⟩ := step_command_cases hin hstep
  · obtain rfl : (⟨st, 0#64, []⟩ : Response) = r := by simpa using hresp
    rfl
  · obtain rfl : (⟨.ok, _, _⟩ : Response) = r := by simpa using hresp
    exact absurd rfl herr

/-! ### Idling and reset (R424, R431, R460) -/

/-- Settles O11: with an empty channel the step is idle. -/
theorem idleStepHoldsTheState : Obligations.IdleStepHoldsTheState := fun _ hin => step_idle hin

/-- Settles O12: a reset input is `resetInstance` at the state with that input taken off the channel. -/
theorem resetGivesTheResetState : Obligations.ResetGivesTheResetState := fun _ _ _ hin => step_reset hin

/-! ### Status codes (R410) -/

/-- Settles O42: the eight codes, one by one. -/
theorem statusCodeTable : Obligations.StatusCodeTable :=
  ⟨rfl, fun st => by cases st <;> decide⟩

end Sys2Proof.Machine
end
